-- ==== Sys2Proof/Word.lean ====
section
/-! DEFINITION. The bit-vector types of the codec: a 64-bit value, an octet, a 7-bit group, a 4-bit count
(rules R6, R12, R14, R15 of spec/). -/

namespace Sys2Proof

/-- A 64-bit value pattern (`VALUE_BITS`, R6). Unsigned it is `toNat`; signed it is `toInt`, the `asI64` of R8. -/
abbrev Word := BitVec 64

/-- One 8-bit octet (`OCTET_BITS`, R6). -/
abbrev Octet := BitVec 8

/-- The seven data bits of an octet (`GROUP_BITS`, R6; the field `D` of R39). -/
abbrev Group := BitVec 7

/-- A count of octets: the 4-bit registers `COUNT`, `N`, `IDX` and `CNT` (R12, R14, R15). -/
abbrev Count := BitVec 4

/-- The two forms of a value and of its encoding (R3): `u64` or `i64`. -/
inductive Form where
  | unsigned
  | signed
  deriving DecidableEq, Repr

end Sys2Proof
end

