-- ==== Sys2Proof/Config.lean ====
section
/-! DEFINITION. What is fixed for the machine: the numbers of rule R6, the value an unlisted octet of the buffer
reads as, and the free values the spec leaves undefined. -/

namespace Sys2Proof.Config

/-- `MAX_OCTETS` (R6): the longest encoded sequence. -/
abbrev maxOctets : Nat := 10

/-- `CONT_BIT` (R6): the bit of an octet that says another octet follows. -/
abbrev contBit : Nat := 7

/-- `SIGN_BIT` (R6): the bit of the first octet that indicates the sign of a signed encoding. -/
abbrev signBit : Nat := 6

/-- `ULEAD10` (R6, R46): the one legal first octet of a 10-octet unsigned encoding. -/
abbrev ulead10 : Octet := 0x81

/-- `SLEAD10` (R6, R46): the legal first octet of a 10-octet signed encoding of a value that is not negative. -/
abbrev slead10Positive : Octet := 0x80

/-- `SLEAD10` (R6, R46): the legal first octet of a 10-octet signed encoding of a negative value. -/
abbrev slead10Negative : Octet := 0xff

/-- DESIGN CHOICE (log 4), unsafe: what an offset of the buffer that State does not list reads as. The spec leaves
the contents of the buffer to the caller (R22). -/
abbrev unlisted : Octet := 0x00

/-- The free values of `VAL_OUT` (U1, U4; R71; log 2). The n-th time the spec leaves `VAL_OUT` undefined it holds
`freeValOut n`; it has no body, so a claim holds whatever the value is. -/
opaque freeValOut : Nat → Word

end Sys2Proof.Config
end

