-- ==== Sys2Proof/Syntax.lean ====
section
/-! DEFINITION. The rows of spec/opcode_table.json: the four operations of rule R50 and the two octet formats of
rule R39, one constructor each. -/

namespace Sys2Proof

/-- What the codec can be given to perform. The operands of an operation are the ports of R12, so the four
operations carry none of their own (R50); an octet carries its group `D` (R39). -/
inductive Instr where
  /-- `ENCU`, encode unsigned (R59). -/
  | encu
  /-- `DECU`, decode unsigned (R64). -/
  | decu
  /-- `ENCS`, encode signed (R60). -/
  | encs
  /-- `DECS`, decode signed (R65). -/
  | decs
  /-- `OCTET_CONT`, `1ddddddd`: an octet that is not the last of its sequence (R39). -/
  | octetCont (d : Group)
  /-- `OCTET_LAST`, `0ddddddd`: the last octet of a sequence (R39). -/
  | octetLast (d : Group)
  deriving DecidableEq, Repr

/-- The two encodings of the hardware (30_encoding.md): the operation select `OP` (R50) and the octets of the wire
format (R39). They are separate spaces: a bit pattern means nothing until it is known which of the two it is in. -/
inductive Space where
  | select
  | wire
  deriving DecidableEq, Repr

/-- The space in which a row of the table is encoded. -/
def spaceOf : Instr → Space
  | .encu => .select
  | .decu => .select
  | .encs => .select
  | .decs => .select
  | .octetCont _ => .wire
  | .octetLast _ => .wire

end Sys2Proof
end

