-- ==== Sys2Proof/WellFormed.lean ====
section
/-! DEFINITION. Well-formedness. A single row has no operand that could be out of range (R50: no operand fields; R39:
seven data bits, the width of `Group`), so every `Instr` is well-formed; what can be ill-formed is a sequence of
octets, by rule R40. -/

namespace Sys2Proof

/-- Every row's operands are in range by their types (R39, R50). -/
def Instr.wellFormed : Instr → Bool
  | .encu => true
  | .decu => true
  | .encs => true
  | .decs => true
  | .octetCont _ => true
  | .octetLast _ => true

/-- The continuation pattern of R40: `C` = 1 on every octet but the last, `C` = 0 on the last. -/
def continuationPattern : List Instr → Bool
  | [] => false
  | [.octetLast _] => true
  | .octetCont _ :: rest => continuationPattern rest
  | _ => false

/-- One encoded value as a sequence of octets (R40): 1 to 10 octets with the continuation pattern. -/
def wellFormedSeq (is : List Instr) : Bool :=
  decide (1 ≤ is.length) && decide (is.length ≤ Config.maxOctets) && continuationPattern is

end Sys2Proof
end

