-- ==== Sys2Proof/Decode.lean ====
section
/-! DEFINITION. Decoding of both encoding spaces (rules R39 and R50), total on any bytes, and after it the encoder
written from the same tables. -/

namespace Sys2Proof

/-- The continuation bit `C` of an octet (R39). -/
def octetC (o : Octet) : Bool := o.getLsbD Config.contBit

/-- The group `D` of an octet (R39). -/
def octetD (o : Octet) : Group := o.extractLsb' 0 7

/-- The octet with continuation bit `c` and group `d` (R39, R53: `zext_8` and `| 0x80`). -/
def octetOf (c : Bool) (d : Group) : Octet :=
  if c then d.setWidth 8 ||| 0x80#8 else d.setWidth 8

/-- The operation a value of `OP` selects (R50): `OP[1]` = 1 means signed, `OP[0]` = 1 means decode. -/
def decodeOp (op : BitVec 2) : Instr :=
  match op.getLsbD 1, op.getLsbD 0 with
  | false, false => .encu
  | false, true => .decu
  | true, false => .encs
  | true, true => .decs

/-- The row of an octet (R39): the continuation bit tells the two formats apart. -/
def decodeOctet (o : Octet) : Instr :=
  if octetC o then .octetCont (octetD o) else .octetLast (octetD o)

/-- Why bytes are not the encoding of a row. -/
inductive DecodeError where
  /-- There is no byte. -/
  | noByte
  /-- The byte does not fit the 2-bit `OP` port (R50). -/
  | notAnOpCode
  deriving DecidableEq, Repr

/-- The row at the front of a list of bytes, in the named space, with the bytes after it. In the select space the
code is in bits 1 and 0 and the rest of the byte is 0 (log 8); in the wire space every byte is an octet (R47). -/
def decodeBytes (sp : Space) : List Octet → Except DecodeError (Instr × List Octet)
  | [] => .error .noByte
  | b :: rest =>
    match sp with
    | .select => if b.toNat < 4 then .ok (decodeOp (b.setWidth 2), rest) else .error .notAnOpCode
    | .wire => .ok (decodeOctet b, rest)

/-- What decodes, or nothing where the bytes are refused. -/
def decoded? : Except DecodeError (Instr × List Octet) → Option Instr
  | .ok (i, _) => some i
  | .error _ => none

/-- The row of the opcode table that the bits `w` of an instruction `nbits` wide are read as. A pattern narrower than
a byte is a value of `OP`. A whole byte below 4 is read as a value of `OP`, every other byte as an octet: the table
puts both formats in one byte and `OCTET_LAST` with a group below 4 has the bits of an operation (log 8). -/
def decodeTableWord (nbits w : Nat) : Option Instr :=
  if nbits < 8 then
    if w < 4 then decoded? (decodeBytes .select [BitVec.ofNat 8 w]) else none
  else if w < 256 then
    match decoded? (decodeBytes .select [BitVec.ofNat 8 w]) with
    | some i => some i
    | none => decoded? (decodeBytes .wire [BitVec.ofNat 8 w])
  else none

/-- The byte of a row in its space (R39, R50). -/
def encode : Instr → Octet
  | .encu => 0b00
  | .decu => 0b01
  | .encs => 0b10
  | .decs => 0b11
  | .octetCont d => octetOf true d
  | .octetLast d => octetOf false d

/-- The value of `OP` that selects an operation; the low two bits of its byte (R50). -/
def selectCode (i : Instr) : BitVec 2 := (encode i).setWidth 2

/-- The `mask` of a row of spec/opcode_table.json. -/
def rowMask : Instr → Octet
  | .encu => 0x3
  | .decu => 0x3
  | .encs => 0x3
  | .decs => 0x3
  | .octetCont _ => 0x80
  | .octetLast _ => 0x80

/-- The `match` of a row of spec/opcode_table.json. -/
def rowMatch : Instr → Octet
  | .encu => 0x0
  | .decu => 0x1
  | .encs => 0x2
  | .decs => 0x3
  | .octetCont _ => 0x80
  | .octetLast _ => 0x00

/-- The `width` of a row of spec/opcode_table.json, in bits. -/
def rowWidth : Instr → Nat
  | .encu => 2
  | .decu => 2
  | .encs => 2
  | .decs => 2
  | .octetCont _ => 8
  | .octetLast _ => 8

end Sys2Proof
end

