-- ==== Sys2Proof/Machine/State.lean ====
section
/-! DEFINITION. The state of the codec: the ports of rule R12, the working registers of rules R14 and R15, the buffer
of rule R21, and the reasons a step can stop. -/

namespace Sys2Proof.Machine

/-- The decoder's state machine (`ST`, R15 and R62). -/
inductive DecState where
  | reading
  | done
  | failed
  deriving DecidableEq, Repr

/-- The diagnostic cause (`CAUSE`, R68). The five codes the hardware produces and no other (U10). -/
inductive Cause where
  | noFailure
  | insufficientBuffer
  | truncatedInput
  | overlong
  | nonCanonicalMaxLength
  deriving DecidableEq, Repr

/-- The buffer: the octets an operation is presented with, as (offset, octet) pairs. -/
abbrev Memory := List Host.Cell

/-- The codec between two operations, or inside one. -/
structure State where
  /-- `OP`, input: which operation to perform (R12, R50). -/
  op : BitVec 2
  /-- `VAL_IN`, input: the value to encode (R12). -/
  valIn : Word
  /-- `LEN`, input: the number of octets in the buffer, an unbounded natural (R7, R12). -/
  len : Nat
  /-- `B`, the buffer (R12, R21, R23). -/
  mem : Memory
  /-- `COUNT`, output: octets written or consumed, 0 on any failure (R12). -/
  count : Count
  /-- `VAL_OUT`, output: the decoded value, meaningful only after a decode with `COUNT` > 0 (R12). -/
  valOut : Word
  /-- `CAUSE`, diagnostic output (R12, R68). -/
  cause : Cause
  /-- `N`, encoder: the required octet count (R14). -/
  n : Count
  /-- `W`, encoder: the remaining value (R14). -/
  w : Word
  /-- `IDX`, encoder: the loop index (R14). -/
  idx : Count
  /-- `OCT`, encoder: the octet being assembled (R14). -/
  encOct : Octet
  /-- `ACC`, decoder: the accumulator (R15). -/
  acc : Word
  /-- `CNT`, decoder: octets consumed so far (R15). -/
  cnt : Count
  /-- `ST`, decoder: the state of its state machine (R15). -/
  st : DecState
  /-- `OCT`, decoder: the octet just read (R15). -/
  decOct : Octet
  /-- `LEAD`, decoder: the first octet (R15). -/
  lead : Octet
  /-- The MODEL's own, not the spec's: how many free values of `VAL_OUT` have been taken (log 2). -/
  draws : Nat
  deriving DecidableEq, Repr

/-- Why the machine can stop with a fault. -/
inductive Fault where
  /-- Raised by `MemRead` and `MemWrite` on an offset not below `LEN`, where R24 defines neither. Safe: the machine
  stops. By R24 no operation makes such an access. -/
  | outsideBuffer (offset : Nat)
  deriving DecidableEq, Repr

/-- Why an instruction can be refused. -/
inductive Refusal where
  /-- Raised by an arm of `exec` whose instruction has no meaning yet. Safe: the machine stops. No arm uses it. -/
  | notModelled (mnemonic : String)
  deriving DecidableEq, Repr

/-- What a step or an operation answers. -/
abbrev Result := Host.Outcome State Fault Refusal

/-- The block right after reset (R22, R76): idle, with nothing presented. The spec gives no register a reset value;
every value here is a DESIGN CHOICE (log 3). `ST` is not READING, because reset leaves the block idle (R76). -/
def State.reset : State where
  op := 0
  valIn := 0
  len := 0
  mem := []
  count := 0
  valOut := 0
  cause := .noFailure
  n := 0
  w := 0
  idx := 0
  encOct := 0
  acc := 0
  cnt := 0
  st := .done
  decOct := 0
  lead := 0
  draws := 0

end Sys2Proof.Machine
end

