-- ==== Sys2Proof/Machine/Operands.lean ====
section
/-! DEFINITION. The value arithmetic of rule R53: the group taken from a value, the shifts by seven, the accumulate
step of rule R63 and the decoder's seed. -/

namespace Sys2Proof.Machine

/-- `W[6:0]`: "extract the low 7 bits" of the remaining value (R53, R57). -/
def lowGroup (w : Word) : Group := w.extractLsb' 0 7

/-- The encoder's shift by seven (R53): `>>u` for the unsigned form, `>>s` for the signed form. -/
def shiftGroup : Form → Word → Word
  | .unsigned, w => w >>> 7
  | .signed, w => w.sshiftRight 7

/-- The accumulate step (R63): shift left by 7 at 64 bits, OR in the group. -/
def accumulate (acc : Word) (d : Group) : Word := (acc <<< 7) ||| d.setWidth 64

/-- The signed decoder's seed (R65): all ones when the sign indicator is set, else 0. -/
def signedSeed (sign : Bool) : Word := if sign then BitVec.allOnes 64 else 0

/-- The seed of a decode, by its form and its first octet (R64, R65). -/
def seedOf (f : Form) (sign : Bool) : Word :=
  match f with
  | .unsigned => 0
  | .signed => signedSeed sign

/-- The form of the operation on `OP`: `OP[1]` = 1 means signed (R50). -/
def formOf (op : BitVec 2) : Form := if op.getLsbD 1 then .signed else .unsigned

end Sys2Proof.Machine
end

