-- ==== Sys2Proof/Machine/Flags.lean ====
section
/-! DEFINITION. The conditions of rule R18 and the tests the algorithms make on them. The continuation bit `C` is
`octetC` of Decode.lean; failure is `COUNT` = 0. -/

namespace Sys2Proof.Machine

/-- The sign indicator `S`, bit 6 of the first octet (R18, R42). -/
def signIndicator (lead : Octet) : Bool := lead.getLsbD Config.signBit

/-- The test of the first octet of a 10-octet sequence, kept as two separate comparisons with literals (R46): 0x81
for the unsigned decoder (R64), 0x80 or 0xff for the signed decoder (R65). -/
def legalLead : Form → Octet → Bool
  | .unsigned, o => o == Config.ulead10
  | .signed, o => o == Config.slead10Positive || o == Config.slead10Negative

/-- The two tests the decoder makes in READING before a read, in the order of R62 and R69: ten octets consumed, then
the end of the buffer. The failure, if one fires. -/
def readingFailure (s : State) : Option Cause :=
  if s.cnt = 10#4 then some .overlong
  else if s.len ≤ s.cnt.toNat then some .truncatedInput
  else none

/-- The code on the `CAUSE` port (R68). -/
def causeCode : Cause → BitVec 3
  | .noFailure => 0
  | .insufficientBuffer => 1
  | .truncatedInput => 2
  | .overlong => 3
  | .nonCanonicalMaxLength => 4

end Sys2Proof.Machine
end

