-- ==== Sys2Proof/Machine/Ops.lean ====
section
/-! DEFINITION. The named operations over the buffer and the registers: reads and writes of the buffer, the one
failure entry (rule R70), the returns, the end of an operation (rule R31), and the caller's move. -/

namespace Sys2Proof.Machine

/-- The octet at an offset: the first listed for it, else `Config.unlisted`. -/
def Memory.read : Memory → Nat → Octet
  | [], _ => Config.unlisted
  | c :: m, a => if c.1 = a then c.2 else Memory.read m a

/-- The list with every entry for an offset taken out. -/
def Memory.erase (m : Memory) (a : Nat) : Memory := m.filter (fun c => c.1 != a)

/-- The list with an entry put in before the first entry of a higher offset. -/
def Memory.insert : Memory → Nat → Octet → Memory
  | [], a, o => [(a, o)]
  | c :: m, a, o => if a < c.1 then (a, o) :: c :: m else c :: Memory.insert m a o

/-- Store an octet at an offset, keeping the canonical form: storing `Config.unlisted` takes the entry out. -/
def Memory.write (m : Memory) (a : Nat) (o : Octet) : Memory :=
  if o = Config.unlisted then Memory.erase m a else Memory.insert (Memory.erase m a) a o

/-- The canonical form: offsets strictly rising, no entry equal to what an unlisted offset reads as. -/
abbrev Memory.wf (m : Memory) : Prop :=
  m.Pairwise (fun c d => c.1 < d.1) ∧ ∀ c ∈ m, c.2 ≠ Config.unlisted

/-- The buffer that holds the given octets from offset `a` on, and nothing else. -/
def Memory.ofOctetsFrom : Nat → List Octet → Memory
  | _, [] => []
  | a, o :: os =>
    if o = Config.unlisted then Memory.ofOctetsFrom (a + 1) os else (a, o) :: Memory.ofOctetsFrom (a + 1) os

/-- `MemRead(a, 1)` (R24): the octet at offset `a`, given to what follows; defined only below `LEN`. -/
def memRead (a : Nat) (s : State) (k : Octet → Result) : Result :=
  if a < s.len then k (Memory.read s.mem a) else .fault (.outsideBuffer a)

/-- `MemWrite(a, 1, o)` (R24): store octet `o` at offset `a`; defined only below `LEN`. -/
def memWrite (a : Nat) (o : Octet) (s : State) : Result :=
  if a < s.len then .next { s with mem := Memory.write s.mem a o } else .fault (.outsideBuffer a)

/-- Go on from a next state, and stop where the first part stopped. -/
def andThen (r : Result) (k : State → Result) : Result :=
  match r with
  | .next s => k s
  | .fault f => .fault f
  | .refused f => .refused f

/-- `VAL_OUT` takes a free value: undefined after a failed decode (U1, R71), not driven by an encode (U4, R13). -/
def undefineValOut (s : State) : State :=
  { s with valOut := Config.freeValOut s.draws, draws := s.draws + 1 }

/-- FAILURE ENTRY (R70), the one shared operation every failure goes through: `COUNT` <- 0, `CAUSE` <- the code, and
no register but these; `VAL_OUT` is left undefined (R71, U1, U4). There is no return from it (R72). -/
def raise (c : Cause) (s : State) : State :=
  { undefineValOut s with count := 0#4, cause := c }

/-- A failure of the decoder: `ST` <- FAILED, then the failure entry (R62). -/
def failDecode (c : Cause) (s : State) : State := raise c { s with st := .failed }

/-- The return of a successful encode (R57): `COUNT` <- `N`; `VAL_OUT` is not driven (R13, U4). -/
def returnEncode (s : State) : State :=
  { undefineValOut s with count := s.n, cause := .noFailure }

/-- The row DONE of R62: `VAL_OUT` <- `ACC`, `COUNT` <- `CNT`. -/
def returnDecode (s : State) : State :=
  { s with valOut := s.acc, count := s.cnt, cause := .noFailure }

/-- A successful decode (R62): `ST` <- DONE, and the return of that row. -/
def completeDecode (s : State) : State := returnDecode { s with st := .done }

/-- The state with the working registers of R14 and R15 as another state has them. -/
def withWorkingOf (s u : State) : State :=
  { s with
    n := u.n, w := u.w, idx := u.idx, encOct := u.encOct
    acc := u.acc, cnt := u.cnt, st := u.st, decOct := u.decOct, lead := u.lead }

/-- After an operation the codec holds "no copy of any octet" (R31) and nothing outlives it (R11, R18): its working
registers are as after reset, whether it succeeded or failed (R72). What they hold then is log 5. The ports and the
buffer, which are the caller's, stay. -/
def release (s : State) : State := withWorkingOf s State.reset

/-- The end of an operation, the one way out of every row: what its procedure answers, with the working registers
released (R31, R72). -/
def endOperation (r : Result) : Result := andThen r (fun s => .next (release s))

/-- The caller's move between operations (R10, R12, R77): present an operation, a value and a buffer with its true
length. -/
def present (op : BitVec 2) (v : Word) (buf : List Octet) (s : State) : State :=
  { s with op := op, valIn := v, len := buf.length, mem := Memory.ofOctetsFrom 0 buf }

end Sys2Proof.Machine
end

