-- ==== Sys2Proof/Machine/Decoder.lean ====
section
/-! DEFINITION. The varint_decoder sub-block: the state machine of rule R62, the operations `DECU` (R64) and `DECS`
(R65), and the two octet formats (R39) as the first octet of a decode. Every decode here runs from its start to its
result (R4). -/

namespace Sys2Proof.Machine

/-- The registers after an octet is consumed (R62, R63): `OCT`, `LEAD` with the first octet, `CNT` + 1, the
accumulated `ACC`. -/
def consumeOctet (o : Octet) (s : State) : State :=
  { s with
    decOct := o
    lead := if s.cnt = 0#4 then o else s.lead
    cnt := s.cnt + 1#4
    acc := accumulate s.acc (octetD o) }

/-- The three reading rows of R62, on the octet read: consume it, and stay in READING when `C` = 1; when `C` = 0 go
to DONE and return, or to FAILED when it is the 10th and the lead is not legal. -/
def readingOctet (f : Form) (o : Octet) (s : State) : State :=
  if octetC o then consumeOctet o s
  else if (consumeOctet o s).cnt = 10#4 ∧ legalLead f (consumeOctet o s).lead = false then
    failDecode .nonCanonicalMaxLength (consumeOctet o s)
  else completeDecode (consumeOctet o s)

/-- One transition from READING (R62): the two tests that make no read, then the read of `B[CNT]`. -/
def decodePass (f : Form) (s : State) : Result :=
  match readingFailure s with
  | some c => .next (failDecode c s)
  | none => memRead s.cnt.toNat s (fun o => .next (readingOctet f o s))

/-- Transitions until a terminal state, at most the given number. Eleven are enough from `CNT` = 0 (R62). -/
def decodeLoop : Nat → Form → State → Result
  | 0, _, s => .next s
  | k + 1, f, s => if s.st = .reading then andThen (decodePass f s) (decodeLoop k f) else .next s

/-- The registers a decode starts from (R22, R62): `ACC` <- seed, `CNT` <- 0, `ST` <- READING. -/
def startDecode (seed : Word) (s : State) : State := { s with acc := seed, cnt := 0#4, st := .reading }

/-- `DECODE(seed, legal_lead)` of R62. -/
def decodeValue (f : Form) (seed : Word) (s : State) : Result := decodeLoop 11 f (startDecode seed s)

/-- The signed decode procedure (R65): the explicit test of the empty buffer, the look at `B[0]` for the sign, `DECODE`.
The empty buffer ends in FAILED too (R66, DEDUCED: log 10). -/
def decodeSigned (s : State) : Result :=
  if s.len = 0 then .next (failDecode .truncatedInput s)
  else memRead 0 s (fun o => decodeValue .signed (signedSeed (signIndicator o)) { s with lead := o })

/-- The decode procedure of a form: of R64, or of R65. -/
def decodeWhole : Form → State → Result
  | .unsigned, s => decodeValue .unsigned 0 s
  | .signed, s => decodeSigned s

/-- `DECU`, decode unsigned (R64). -/
def execDecu (s : State) : Result := endOperation (decodeWhole .unsigned s)

/-- `DECS`, decode signed (R65). -/
def execDecs (s : State) : Result := endOperation (decodeWhole .signed s)

/-- A decode, start to result, whose first octet is `o` (R22, R39, R62): it starts from the registers of R22 and never
from saved ones (R4), consumes `o` as the octet at offset 0, and reads the octets after it from the buffer. An empty
buffer holds no octet, and fails with no read. -/
def decodeFirst (f : Form) (o : Octet) (s : State) : Result :=
  if s.len = 0 then .next (failDecode .truncatedInput s)
  else decodeLoop 10 f (readingOctet f o (startDecode (seedOf f (signIndicator o)) s))

/-- `OCTET_CONT`, `1ddddddd` (R39): the first of several octets of a decode, in the form of `OP[1]` (logs 1 and 6). -/
def execOctetCont (d : Group) (s : State) : Result :=
  endOperation (decodeFirst (formOf s.op) (octetOf true d) s)

/-- `OCTET_LAST`, `0ddddddd` (R39): the one octet of a decode, in the form of `OP[1]` (logs 1 and 6). -/
def execOctetLast (d : Group) (s : State) : Result :=
  endOperation (decodeFirst (formOf s.op) (octetOf false d) s)

end Sys2Proof.Machine
end

