-- ==== Sys2Proof/Machine/Size.lean ====
section
/-! DEFINITION. The size computation both encoders use (rules R52 and R54 to R56). -/

namespace Sys2Proof.Machine

/-- The highest set bit of `x` at or below position `i`, and 0 where there is none. -/
def findMsbFrom : Nat → Word → Nat
  | 0, _ => 0
  | i + 1, x => if x.getLsbD (i + 1) then i + 1 else findMsbFrom i x

/-- `FINDMSB(x)` (R54): the largest set bit position, 0 for `x` = 0. -/
def findMsb (x : Word) : Nat := findMsbFrom 63 x

/-- `USIZE(v)` (R55). -/
def usize (v : Word) : Nat := findMsb v / 7 + 1

/-- `m` of R56: the pattern itself for a value that is not negative, its complement for a negative one. -/
def signMagnitude (v : Word) : Word := if v.msb then ~~~v else v

/-- `SSIZE(v)` (R56), on the pattern of `v`. -/
def ssize (v : Word) : Nat := (findMsb (signMagnitude v) + 1) / 7 + 1

/-- `SIZE` of R57: the required octet count of the value in its form. -/
def size : Form → Word → Nat
  | .unsigned, v => usize v
  | .signed, v => ssize v

end Sys2Proof.Machine
end

