-- ==== Sys2Proof/Machine/Encoder.lean ====
section
/-! DEFINITION. The varint_encoder sub-block: the procedure of rule R57 and the operations `ENCU` (R59) and `ENCS`
(R60). -/

namespace Sys2Proof.Machine

/-- The octet one pass assembles (R57): the low group of `W`, with the continuation bit on every octet but octet
`N`-1 (the test `IDX != N`, C1). -/
def assembledOctet (s : State) : Octet := octetOf (s.idx != s.n) (lowGroup s.w)

/-- One pass of the loop of R57: assemble, shift `W`, store at offset `IDX`-1, decrement `IDX`. -/
def encodePass (f : Form) (s : State) : Result :=
  memWrite (s.idx.toNat - 1) (assembledOctet s)
    { s with encOct := assembledOctet s, w := shiftGroup f s.w, idx := s.idx - 1#4 }

/-- The counted loop of R57 and R58: the given number of passes, with no early exit. -/
def encodeLoop : Nat → Form → State → Result
  | 0, _, s => .next s
  | k + 1, f, s => andThen (encodePass f s) (encodeLoop k f)

/-- The registers an encode starts from (R22): `N` <- SIZE(VAL_IN), `W` <- VAL_IN, `IDX` <- `N`. -/
def startEncode (f : Form) (s : State) : State :=
  { s with n := BitVec.ofNat 4 (size f s.valIn), w := s.valIn, idx := BitVec.ofNat 4 (size f s.valIn) }

/-- The encode procedure of R57 in the given form: the size check before any write, the loop, the return. Its working
registers are released by the operation that runs it. -/
def encodeValue (f : Form) (s : State) : Result :=
  if s.len < size f s.valIn then
    .next (raise .insufficientBuffer { s with n := BitVec.ofNat 4 (size f s.valIn) })
  else
    andThen (encodeLoop (size f s.valIn) f (startEncode f s)) (fun t => .next (returnEncode t))

/-- `ENCU`, encode unsigned (R59). -/
def execEncu (s : State) : Result := endOperation (encodeValue .unsigned s)

/-- `ENCS`, encode signed (R60). -/
def execEncs (s : State) : Result := endOperation (encodeValue .signed s)

end Sys2Proof.Machine
end

