-- ==== Sys2Proof/Machine/Dispatch.lean ====
section
/-! DEFINITION. The meaning of every row of the opcode table, one arm each. -/

namespace Sys2Proof.Machine

def exec (i : Instr) (s : State) : Host.Outcome State Fault Refusal :=
  match i with
  | .encu => Sys2Proof.Machine.execEncu s
  | .decu => Sys2Proof.Machine.execDecu s
  | .encs => Sys2Proof.Machine.execEncs s
  | .decs => Sys2Proof.Machine.execDecs s
  | .octetCont d => Sys2Proof.Machine.execOctetCont d s
  | .octetLast d => Sys2Proof.Machine.execOctetLast d s

end Sys2Proof.Machine
end

