-- ==== Sys2Proof/Machine/Fetch.lean ====
section
/-! DEFINITION. What the next step performs. There is no instruction fetch (R17, R36): it is the operation on `OP` (R50),
start to result. The octets of the wire format are fetched by a decode, from offset 0 of the buffer (R25, R29). -/

namespace Sys2Proof.Machine

/-- Find what is to be performed and perform it with `run`: the operation on `OP` (R50). -/
def fetchThen (run : Instr → State → Result) (s : State) : Result := run (decodeOp s.op) s

/-- Present an operation: its code on `OP`. -/
def placeOp (c : BitVec 2) (s : State) : State := { s with op := c }

/-- Put an octet where a decode reads its first octet: offset 0 of a buffer of one octet or more, with a decode on `OP`
in the form `OP` has (log 7). -/
def placeOctet (o : Octet) (s : State) : State :=
  { s with op := s.op ||| 1#2, len := max s.len 1, mem := Memory.write s.mem 0 o }

/-- Put a row of the table where the next step performs it. -/
def placeInstr (i : Instr) (s : State) : State :=
  match spaceOf i with
  | .select => placeOp (selectCode i) s
  | .wire => placeOctet (encode i) s

end Sys2Proof.Machine
end

