-- ==== Sys2Proof/Machine/Step.lean ====
section
/-! DEFINITION. One step of the codec: one operation, from its start to its result (rule R81). -/

namespace Sys2Proof.Machine

/-- One step: perform the operation the ports present. -/
def step (s : State) : Host.Outcome State Fault Refusal := fetchThen exec s

/-- The state with the row that `decodeTableWord` reads placed where `step` performs it next; the state itself where
the word is no row. -/
def State.withFetchWord (s : State) (nbits w : Nat) : State :=
  match decodeTableWord nbits w with
  | some i => placeInstr i s
  | none => s

end Sys2Proof.Machine
end

