-- ==== Sys2Proof/Safety.lean ====
section
/-! DEFINITION. The terms claims use: the octets of the buffer, the value a sequence stands for (rules R41, R42), the
length found by scanning (R49), the conditions of the failures (R67), the invariant of the machine. -/

namespace Sys2Proof.Machine

/-- The octet the model reads at an offset of the buffer, `B[a]` (R23). -/
def octetAt (s : State) (a : Nat) : Octet := Memory.read s.mem a

/-- The group `D_k` of the octet at offset `k`, as a number (R41). -/
def digitAt (s : State) (k : Nat) : Nat := (octetD (octetAt s k)).toNat

/-- The value of the first `n` octets in the unsigned form: the groups are digits in base 128, most significant first
(R41). -/
def unsignedValue (s : State) (n : Nat) : Nat :=
  ∑ k ∈ Finset.range n, digitAt s k * 2 ^ (7 * (n - 1 - k))

/-- The value of the first `n` octets in the signed form: the same digits as a two's-complement number of `7n` bits
whose sign is bit 6 of the first octet (R42). -/
def signedValue (s : State) (n : Nat) : Int :=
  if signIndicator (octetAt s 0) then (unsignedValue s n : Int) - 2 ^ (7 * n) else (unsignedValue s n : Int)

/-- The buffer begins with a sequence of exactly `n` octets (R40, R49): 1 to 10, inside the buffer, `C` = 1 on all
but the last. -/
abbrev hasLength (s : State) (n : Nat) : Prop :=
  1 ≤ n ∧ n ≤ 10 ∧ n ≤ s.len ∧ (∀ k < n - 1, octetC (octetAt s k) = true) ∧ octetC (octetAt s (n - 1)) = false

/-- The condition of `TruncatedInput` (R67): at most nine octets, none of them terminating. -/
abbrev truncatedInput (s : State) : Prop := s.len ≤ 9 ∧ ∀ k < s.len, octetC (octetAt s k) = true

/-- The condition of `Overlong` (R67): the first ten octets all have `C` = 1. -/
abbrev overlongInput (s : State) : Prop := 10 ≤ s.len ∧ ∀ k < 10, octetC (octetAt s k) = true

/-- The condition of `NonCanonicalMaxLength` (R67): exactly ten octets with a first octet that is not legal. -/
abbrev wrongLead (f : Form) (s : State) : Prop := hasLength s 10 ∧ legalLead f (octetAt s 0) = false

/-- The encode operation of a form (R2): `ENCU` or `ENCS`. -/
def encodeInstr : Form → Instr
  | .unsigned => .encu
  | .signed => .encs

/-- The decode operation of a form (R2): `DECU` or `DECS`. -/
def decodeInstr : Form → Instr
  | .unsigned => .decu
  | .signed => .decs

/-- One of the four operations (R2), not an octet of the wire format. -/
def isOperation (i : Instr) : Bool := spaceOf i == .select

/-- No decode is under way (R76): the condition the block is in between operations. -/
abbrev idle (s : State) : Prop := s.st ≠ .reading

/-- Every octet listed lies inside the buffer, which is an array of exactly `LEN` octets (R23, U6). -/
abbrev insideBuffer (s : State) : Prop := ∀ c ∈ s.mem, c.1 < s.len

/-- The decoder's transitions one after another, as many as given (R62). -/
def transitions : Nat → Form → State → Result
  | 0, _, s => .next s
  | k + 1, f, s => andThen (decodePass f s) (transitions k f)

/-- The decoder reaches a result in so many transitions, and is in READING until then (R62). -/
def reachedByTransitions (f : Form) (s : State) (r : Result) : Prop :=
  ∃ k, 1 ≤ k ∧ k ≤ 11 ∧ transitions k f s = r ∧ ∀ j < k, ∃ u, transitions j f s = .next u ∧ u.st = .reading

/-- The codec holds nothing of an operation: every working register is as after reset (R11, R31, R72). -/
abbrev released (s : State) : Prop := withWorkingOf s State.reset = s

/-- The invariant of the machine between operations: the buffer is in canonical form and inside `LEN`, no working
register holds anything of an operation (R31), the block is idle (R76), and no count is above ten (R12, R14, R15,
R17). -/
structure Inv (s : State) : Prop where
  wf : Memory.wf s.mem
  inside : insideBuffer s
  released : released s
  idle : idle s
  count : s.count.toNat ≤ 10
  n : s.n.toNat ≤ 10
  idx : s.idx.toNat ≤ 10
  cnt : s.cnt.toNat ≤ 10

/-- What an operation answers to its caller is the same in two states (R11): `COUNT`, the buffer, and `VAL_OUT` where
it is meaningful, after a decode with `COUNT` > 0 (R12, R13). -/
def sameAnswer (decode : Bool) (t u : State) : Prop :=
  t.count = u.count ∧ t.mem = u.mem ∧ (decode = true → t.count ≠ 0#4 → t.valOut = u.valOut)

end Sys2Proof.Machine
end

