-- ==== Sys2Proof/Certificates/Slice0/Obligations.lean ====
section
/-! DEFINITION. The statements for the provers. Each docstring names the rule of spec/ it formalises, or says what it is
derived from. `exec` answers a next state for every row, so most conclusions say which. -/

open Sys2Proof Sys2Proof.Machine

/-! ### Reset, the step, decoding -/

/-- The state after reset meets the invariant. Model's choice: the reset values are log 3, the canonical form of the
buffer log 4, that the working registers of an idle block are those of reset log 5; that reset leaves the block idle is
R76 (the spec's decision D13). -/
def Obligations.ResetMeetsInvariant : Prop := Inv State.reset

/-- A step performs the row that is decoded: the operation on `OP`, whole (R50, R81); and where that is a decode of a
buffer that is not empty, the step is the row of the octet at offset 0, the first it reads. Model's choice: the meaning
of an octet row (log 1) and its form (log 6). -/
def Obligations.StepPerformsDecodedRow : Prop :=
  ∀ s : State,
    step s = exec (decodeOp s.op) s ∧
    (s.op.getLsbD 0 = true → s.len ≠ 0 → step s = exec (decodeOctet (octetAt s 0)) s)

/-- A few words written out from the encodings: the four values of `OP` (the spec's decision D2) and an octet of each
format. The byte layout of `OP` is the model's choice (log 8). -/
def Obligations.DecodedWords : Prop :=
  decodeBytes .select [0x00] = .ok (.encu, []) ∧ decodeBytes .select [0x01] = .ok (.decu, []) ∧
  decodeBytes .select [0x02] = .ok (.encs, []) ∧ decodeBytes .select [0x03] = .ok (.decs, []) ∧
  decodeBytes .select [0x04] = .error .notAnOpCode ∧ decodeBytes .wire [] = .error .noByte ∧
  decodeBytes .wire [0xfd, 0x54] = .ok (.octetCont 0x7d, [0x54]) ∧
  decodeBytes .wire [0x54] = .ok (.octetLast 0x54, [])

/-- R39: bit 7 tells the two octet formats apart, bits 6 to 0 are the group; `1ddddddd` is 0x80 to 0xff and `0ddddddd`
is 0x00 to 0x7f. -/
def Obligations.OctetFields : Prop :=
  ∀ o : Octet,
    (0x80 ≤ o.toNat → decodeOctet o = .octetCont (o.setWidth 7)) ∧
    (o.toNat ≤ 0x7f → decodeOctet o = .octetLast (o.setWidth 7))

/-- Decode and encode agree on every row with every operand, whatever bytes follow. -/
def Obligations.DecodeOfEncode : Prop :=
  ∀ (i : Instr) (rest : List Octet), decodeBytes (spaceOf i) (encode i :: rest) = .ok (i, rest)

/-- Every byte that decodes is the encoding of what it decodes to: no two bytes of a space have one meaning. -/
def Obligations.EncodeOfDecode : Prop :=
  ∀ (sp : Space) (b : Octet) (bs rest : List Octet) (i : Instr),
    decodeBytes sp (b :: bs) = .ok (i, rest) → spaceOf i = sp ∧ encode i = b ∧ rest = bs

/-- A row of the table placed by `withFetchWord` is what the next step performs (log 7), from every state. -/
def Obligations.PlacedRowRunsNext : Prop :=
  ∀ (s : State) (nbits w : Nat) (i : Instr), decodeTableWord nbits w = some i →
    step (s.withFetchWord nbits w) = exec i (s.withFetchWord nbits w)

/-! ### The size computation -/

/-- R54: `FINDMSB` is 0 for 0, else the largest set bit position, the floor of the logarithm to base 2. -/
def Obligations.FindMsbIsHighestSetBit : Prop :=
  ∀ x : Word,
    (x = 0 → findMsb x = 0) ∧
    (x ≠ 0 → findMsb x ≤ 63 ∧ x.getLsbD (findMsb x) = true ∧ (∀ j, findMsb x < j → j ≤ 63 → x.getLsbD j = false) ∧
      findMsb x = Nat.log2 x.toNat)

/-- The size formulas of R55 and R56 at their corner cases. -/
def Obligations.SizeCornerCases : Prop :=
  (usize 0 = 1 ∧ usize 127 = 1 ∧ usize 128 = 2 ∧ usize (BitVec.ofNat 64 (2 ^ 63 - 1)) = 9 ∧
    usize (BitVec.ofNat 64 (2 ^ 63)) = 10 ∧ usize (BitVec.ofNat 64 (2 ^ 64 - 1)) = 10) ∧
  (ssize 0 = 1 ∧ ssize (BitVec.ofInt 64 (-1)) = 1 ∧ ssize 63 = 1 ∧ ssize 64 = 2 ∧ ssize (BitVec.ofInt 64 (-64)) = 1 ∧
    ssize (BitVec.ofInt 64 (-65)) = 2 ∧ ssize (BitVec.ofInt 64 (2 ^ 62 - 1)) = 9 ∧
    ssize (BitVec.ofInt 64 (2 ^ 62)) = 10 ∧ ssize (BitVec.ofInt 64 (-2 ^ 62)) = 9 ∧
    ssize (BitVec.ofInt 64 (-2 ^ 62 - 1)) = 10 ∧ ssize (BitVec.ofInt 64 (2 ^ 63 - 1)) = 10 ∧
    ssize (BitVec.ofInt 64 (-2 ^ 63)) = 10)

/-- `USIZE(v)` is the least `n` ≥ 1 with `v` < 2^(7n), and lies between 1 and 10 (derived by the spec from R55). -/
def Obligations.UsizeIsLeast : Prop :=
  ∀ v : Word,
    1 ≤ usize v ∧ usize v ≤ 10 ∧ v.toNat < 2 ^ (7 * usize v) ∧
    ∀ n, 1 ≤ n → v.toNat < 2 ^ (7 * n) → usize v ≤ n

/-- `SSIZE(v)` is the least `n` ≥ 1 with −2^(7n−1) ≤ `v` < 2^(7n−1), and lies between 1 and 10 (derived by the spec from
R56). -/
def Obligations.SsizeIsLeast : Prop :=
  ∀ v : Word,
    1 ≤ ssize v ∧ ssize v ≤ 10 ∧ -(2 : Int) ^ (7 * ssize v - 1) ≤ v.toInt ∧ v.toInt < (2 : Int) ^ (7 * ssize v - 1) ∧
    ∀ n, 1 ≤ n → -(2 : Int) ^ (7 * n - 1) ≤ v.toInt → v.toInt < (2 : Int) ^ (7 * n - 1) → ssize v ≤ n

/-! ### The encoders -/

/-- R59, `ENCU`: with `N` = USIZE(VAL_IN) octets of room it writes the base-128 digits of the value, most significant
first, `C` = 1 on all but octet `N`-1, leaves the rest of the buffer, and answers `N`; with less it answers 0 and leaves
the buffer. -/
def Obligations.EncuWritesUnsignedOctets : Prop :=
  ∀ s : State,
    (usize s.valIn ≤ s.len → ∃ t, exec .encu s = .next t ∧ t.count.toNat = usize s.valIn ∧
      (∀ k, k < usize s.valIn → octetAt t k =
        ((s.valIn >>> (7 * (usize s.valIn - 1 - k))) &&& 0x7f#64).setWidth 8 |||
          (if k < usize s.valIn - 1 then 0x80#8 else 0x00#8)) ∧
      (∀ a, usize s.valIn ≤ a → octetAt t a = octetAt s a)) ∧
    (s.len < usize s.valIn → ∃ t, exec .encu s = .next t ∧ t.count = 0#4 ∧ t.mem = s.mem)

/-- R60, `ENCS`: with `N` = SSIZE(VAL_IN) octets of room it writes the digits of the two's-complement value, most
significant first, `C` = 1 on all but octet `N`-1, leaves the rest of the buffer, and answers `N`; with less it answers
0 and leaves the buffer. -/
def Obligations.EncsWritesSignedOctets : Prop :=
  ∀ s : State,
    (ssize s.valIn ≤ s.len → ∃ t, exec .encs s = .next t ∧ t.count.toNat = ssize s.valIn ∧
      (∀ k, k < ssize s.valIn → octetAt t k =
        BitVec.ofInt 8 (s.valIn.toInt / 2 ^ (7 * (ssize s.valIn - 1 - k)) % 128) |||
          (if k < ssize s.valIn - 1 then 0x80#8 else 0x00#8)) ∧
      (∀ a, ssize s.valIn ≤ a → octetAt t a = octetAt s a)) ∧
    (s.len < ssize s.valIn → ∃ t, exec .encs s = .next t ∧ t.count = 0#4 ∧ t.mem = s.mem)

/-- What a successful encode ends with. The spec derives, in the corner cases of R59 and R60: at ten octets `ENCU` begins
with 0x81 and `ENCS` with 0x80 or 0xff by the sign; the sign indicator of `ENCS` is the sign; a first group of `ENCU` is
not 0 where there are two octets or more; after the loop `IDX` is 0 and `W` is 0, or all ones for a negative signed
value. `u` is the state after the loop of R57, `t` that after the operation, with the buffer and the count of `u`. -/
def Obligations.EncoderEndState : Prop :=
  ∀ s : State,
    (usize s.valIn ≤ s.len → ∃ u t, encodeLoop (usize s.valIn) .unsigned (startEncode .unsigned s) = .next u ∧
      exec .encu s = .next t ∧ t.mem = u.mem ∧ t.count = u.n ∧ u.w = 0 ∧ u.idx = 0#4 ∧ u.n.toNat = usize s.valIn ∧
      (usize s.valIn = 10 → octetAt t 0 = 0x81#8) ∧ (2 ≤ usize s.valIn → octetD (octetAt t 0) ≠ 0)) ∧
    (ssize s.valIn ≤ s.len → ∃ u t, encodeLoop (ssize s.valIn) .signed (startEncode .signed s) = .next u ∧
      exec .encs s = .next t ∧ t.mem = u.mem ∧ t.count = u.n ∧
      u.w = (if s.valIn.toInt < 0 then BitVec.allOnes 64 else 0) ∧ u.idx = 0#4 ∧ u.n.toNat = ssize s.valIn ∧
      (ssize s.valIn = 10 → octetAt t 0 = if s.valIn.toInt < 0 then 0xff#8 else 0x80#8) ∧
      (signIndicator (octetAt t 0) = true ↔ s.valIn.toInt < 0))

/-- Frame of `ENCU` and `ENCS`: a next state leaves the input ports and every octet outside `B[0 .. N-1]` (R13, R28), and
where it fails every octet (R71), and `t` is the state `u` its procedure answers, with every working register released
(R31). The procedure itself writes no register of the decoder, and where it fails none of the encoder but `N`. Model's
choice: what a released register holds (log 5), and that the decoder's `OCT` is a register of its own (log 11). -/
def Obligations.EncodeFrame : Prop :=
  ∀ (f : Form) (s t : State), exec (encodeInstr f) s = .next t →
    t.op = s.op ∧ t.valIn = s.valIn ∧ t.len = s.len ∧
    (∀ a, ¬(a < size f s.valIn ∧ size f s.valIn ≤ s.len) → octetAt t a = octetAt s a) ∧
    ∃ u, encodeValue f s = .next u ∧ t = withWorkingOf u State.reset ∧ u.acc = s.acc ∧ u.cnt = s.cnt ∧ u.st = s.st ∧
      u.decOct = s.decOct ∧ u.lead = s.lead ∧
      (s.len < size f s.valIn → u.w = s.w ∧ u.idx = s.idx ∧ u.encOct = s.encOct)

/-- What `ENCU` and `ENCS` write is a sequence of 1 to 10 octets with `C` = 1 on all but the last (derived from R40 and
R57). Which octets they are, and so that none stands before or between them, EncuWritesUnsignedOctets and
EncsWritesSignedOctets say. -/
def Obligations.EncodersWriteSequences : Prop :=
  ∀ (f : Form) (s : State), size f s.valIn ≤ s.len → ∃ t, exec (encodeInstr f) s = .next t ∧
    hasLength t t.count.toNat ∧
    wellFormedSeq ((List.range t.count.toNat).map fun k => decodeOctet (octetAt t k)) = true

/-- The length and the first octet of each range of unsigned values (the table of R44, derived by the spec). -/
def Obligations.UnsignedLengths : Prop :=
  ∀ s : State, usize s.valIn ≤ s.len → ∃ t, exec .encu s = .next t ∧ t.valIn = s.valIn ∧
    ∀ n, t.count.toNat = n →
      s.valIn.toNat < 2 ^ (7 * n) ∧ (2 ≤ n → 2 ^ (7 * (n - 1)) ≤ s.valIn.toNat) ∧
      (n = 1 → (octetAt t 0).toNat ≤ 0x7f) ∧ (2 ≤ n → 0x81 ≤ (octetAt t 0).toNat) ∧
      (n = 10 → octetAt t 0 = 0x81#8)

/-- The length of each range of signed values, and that a canonical signed encoding does not begin with a group that
only repeats the sign (the table of R45, derived by the spec). -/
def Obligations.SignedLengths : Prop :=
  ∀ s : State, ssize s.valIn ≤ s.len → ∃ t, exec .encs s = .next t ∧
    ∀ n, t.count.toNat = n →
      -(2 : Int) ^ (7 * n - 1) ≤ s.valIn.toInt ∧ s.valIn.toInt < (2 : Int) ^ (7 * n - 1) ∧
      (2 ≤ n → s.valIn.toInt < -(2 : Int) ^ (7 * (n - 1) - 1) ∨ (2 : Int) ^ (7 * (n - 1) - 1) ≤ s.valIn.toInt) ∧
      (2 ≤ n → ¬(octetD (octetAt t 0) = 0x00#7 ∧ signIndicator (octetAt t 1) = false) ∧
        ¬(octetD (octetAt t 0) = 0x7f#7 ∧ signIndicator (octetAt t 1) = true))

/-- Where a value that is not negative needs the same count in both forms, the two encoders write the same octets
(derived: 95_test_vectors.md section 2.3). -/
def Obligations.EncodersAgreeWhenSizesAgree : Prop :=
  ∀ s : State, 0 ≤ s.valIn.toInt → usize s.valIn = ssize s.valIn →
    ∃ t u, exec .encu s = .next t ∧ exec .encs s = .next u ∧ t.count = u.count ∧ ∀ a, octetAt t a = octetAt u a

/-! ### The decoders -/

/-- By R64, `DECU`: a sequence of `n` octets gives its unsigned value and `n`, but a sequence of ten only with first octet
0x81; everything else gives 0. The buffer is as before.
Model's choice (log 2): what the rule calls undefined, `VAL_OUT` after a failure, is the free value of the model. Which
failure it is, CauseNamesTheFailure says. -/
def Obligations.DecuReadsUnsignedValue : Prop :=
  ∀ s : State,
    (∀ n, hasLength s n → (n = 10 → octetAt s 0 = 0x81#8) →
      ∃ t, exec .decu s = .next t ∧ t.count.toNat = n ∧ t.valOut.toNat = unsignedValue s n ∧ t.mem = s.mem) ∧
    (hasLength s 10 → octetAt s 0 ≠ 0x81#8 → ∃ t, exec .decu s = .next t ∧ t.count = 0#4 ∧
      t.valOut = Config.freeValOut s.draws ∧ t.mem = s.mem) ∧
    (truncatedInput s ∨ overlongInput s → ∃ t, exec .decu s = .next t ∧ t.count = 0#4 ∧
      t.valOut = Config.freeValOut s.draws ∧ t.mem = s.mem)

/-- By R65, `DECS`: a sequence of `n` octets gives its signed value and `n`, but a sequence of ten only with first octet
0x80 or 0xff; everything else gives 0. The buffer is as before.
Model's choice (log 2): what the rule calls undefined, `VAL_OUT` after a failure, is the free value of the model. Which
failure it is, CauseNamesTheFailure says. -/
def Obligations.DecsReadsSignedValue : Prop :=
  ∀ s : State,
    (∀ n, hasLength s n → (n = 10 → octetAt s 0 = 0x80#8 ∨ octetAt s 0 = 0xff#8) →
      ∃ t, exec .decs s = .next t ∧ t.count.toNat = n ∧ t.valOut.toInt = signedValue s n ∧ t.mem = s.mem) ∧
    (hasLength s 10 → ¬(octetAt s 0 = 0x80#8 ∨ octetAt s 0 = 0xff#8) →
      ∃ t, exec .decs s = .next t ∧ t.count = 0#4 ∧
      t.valOut = Config.freeValOut s.draws ∧ t.mem = s.mem) ∧
    (truncatedInput s ∨ overlongInput s → ∃ t, exec .decs s = .next t ∧ t.count = 0#4 ∧
      t.valOut = Config.freeValOut s.draws ∧ t.mem = s.mem)

/-- R47: `DECU` and `DECS` reject an input, with `COUNT` = 0, in exactly the cases of the table and in no other. -/
def Obligations.DecodersRejectExactly : Prop :=
  ∀ s : State,
    (∃ t, exec .decu s = .next t ∧
      (t.count = 0#4 ↔ s.len = 0 ∨ (s.len ≤ 9 ∧ ∀ k < s.len, octetC (octetAt s k) = true) ∨
        (10 ≤ s.len ∧ ∀ k < 10, octetC (octetAt s k) = true) ∨ (hasLength s 10 ∧ octetAt s 0 ≠ 0x81#8))) ∧
    (∃ t, exec .decs s = .next t ∧
      (t.count = 0#4 ↔ s.len = 0 ∨ (s.len ≤ 9 ∧ ∀ k < s.len, octetC (octetAt s k) = true) ∨
        (10 ≤ s.len ∧ ∀ k < 10, octetC (octetAt s k) = true) ∨
        (hasLength s 10 ∧ octetAt s 0 ≠ 0x80#8 ∧ octetAt s 0 ≠ 0xff#8)))

/-- The decoders do not check that a sequence is canonical (R48, derived by the spec): below ten octets every sequence
is accepted by both, in DONE (R62), whatever its first groups are, and at ten `DECS` accepts every one that begins with
0x80 or 0xff. -/
def Obligations.ShortSequencesAreAccepted : Prop :=
  ∀ (s : State) (n : Nat), hasLength s n →
    (n ≤ 9 → ∀ f, ∃ u t, decodeWhole f s = .next u ∧ u.st = .done ∧
      exec (decodeInstr f) s = .next t ∧ t.count.toNat = n) ∧
    (n = 10 → (∃ t, exec .decs s = .next t ∧ (t.count.toNat = 10 ↔ octetAt s 0 = 0x80#8 ∨ octetAt s 0 = 0xff#8)) ∧
      ∃ t, exec .decu s = .next t ∧ (t.count.toNat = 10 ↔ octetAt s 0 = 0x81#8))

/-- The two decoders on the same octets (R49, derived by the spec): below ten octets they agree on the value exactly
where bit 6 of the first octet is 0; at ten octets at most one of them accepts. -/
def Obligations.DecodersDifferBySignIndicator : Prop :=
  ∀ (s : State) (n : Nat), hasLength s n →
    ∃ t u, exec .decu s = .next t ∧ exec .decs s = .next u ∧
      (n ≤ 9 → (t.valOut = u.valOut ↔ signIndicator (octetAt s 0) = false)) ∧
      (n = 10 → t.count = 0#4 ∨ u.count = 0#4)

/-- Frame of `DECU` and `DECS`: a next state leaves the input ports and the whole buffer (R13, R29), and is the state `u`
its procedure answers, with every working register released (R31). The procedure itself writes no register of the
encoder. Model's choice: what a released register holds (log 5), and that the encoder's `OCT` is a register of its own
(log 11). -/
def Obligations.DecodeFrame : Prop :=
  ∀ (f : Form) (s t : State), exec (decodeInstr f) s = .next t →
    t.op = s.op ∧ t.valIn = s.valIn ∧ t.len = s.len ∧ (∀ a, octetAt t a = octetAt s a) ∧
    ∃ u, decodeWhole f s = .next u ∧ t = withWorkingOf u State.reset ∧ u.n = s.n ∧ u.w = s.w ∧ u.idx = s.idx ∧
      u.encOct = s.encOct

/-- The result of a decode depends only on its octets (R29, R66): two states in which the same first octets stand, both
in reach, give the same count and the same value, whatever follows and whatever `LEN` is. -/
def Obligations.DecodeReadsOnlyItsOctets : Prop :=
  ∀ (f : Form) (s u : State) (n : Nat), hasLength s n → n ≤ u.len → (∀ k, k < n → octetAt u k = octetAt s k) →
    ∃ t v, exec (decodeInstr f) s = .next t ∧ exec (decodeInstr f) u = .next v ∧ v.count = t.count ∧
      (t.count ≠ 0#4 → v.valOut = t.valOut)

/-! ### The transitions of the decoder and the octets of the wire format -/

/-- R63: each octet the decoder reads is accumulated, `ACC` <- (`ACC` · 128) mod 2^64 + `OCT[6:0]`. Its continuation bit
is not, and the bits that leave at the top are discarded. It holds at every offset and whatever the octet leads to:
READING, DONE or FAILED. -/
def Obligations.OctetIsAccumulated : Prop :=
  ∀ (f : Form) (s : State), s.cnt.toNat < 10 → s.cnt.toNat < s.len →
    ∃ t, decodePass f s = .next t ∧ t.decOct = octetAt s s.cnt.toNat ∧
      t.acc.toNat = s.acc.toNat * 128 % 2 ^ 64 + t.decOct.toNat % 128

/-- The table of R62, the decoder's state machine row by row. A transition from READING is `decodePass`, on the octet at
offset `CNT`; `LEAD` holds the first octet (R15), which that octet itself is where `CNT` = 0. DONE and FAILED are
terminal. The causes, and the order of the first two tests, are the spec's own decisions (D4, D5). Model's choice: the
outputs of the last two rows are driven on the transition into them (log 12), `VAL_OUT` in FAILED with the free value of
the model (log 2). -/
def Obligations.DecoderTransitionTable : Prop :=
  ∀ (f : Form) (s : State), s.cnt.toNat ≤ 10 →
    (s.st = .reading → s.cnt.toNat = 10 → ∃ t, decodePass f s = .next t ∧ t.st = .failed ∧ t.count = 0#4 ∧
      t.cause = .overlong ∧ t.cnt = s.cnt ∧ t.acc = s.acc ∧ t.valOut = Config.freeValOut s.draws) ∧
    (s.st = .reading → s.cnt.toNat ≠ 10 → s.len ≤ s.cnt.toNat → ∃ t, decodePass f s = .next t ∧
      t.st = .failed ∧ t.count = 0#4 ∧ t.cause = .truncatedInput ∧ t.cnt = s.cnt ∧ t.acc = s.acc ∧
      t.valOut = Config.freeValOut s.draws) ∧
    (s.st = .reading → s.cnt.toNat ≠ 10 → s.cnt.toNat < s.len →
      (octetC (octetAt s s.cnt.toNat) = true → ∃ t, decodePass f s = .next t ∧ t.st = .reading ∧
        t.cnt = s.cnt + 1#4 ∧ t.acc = accumulate s.acc (octetD (octetAt s s.cnt.toNat)) ∧
        (t.lead = if s.cnt = 0#4 then octetAt s 0 else s.lead) ∧
        t.count = s.count ∧ t.valOut = s.valOut ∧ t.cause = s.cause) ∧
      (octetC (octetAt s s.cnt.toNat) = false → s.cnt.toNat + 1 < 10 ∨ legalLead f s.lead = true →
        ∃ t, decodePass f s = .next t ∧ t.st = .done ∧ t.cnt = s.cnt + 1#4 ∧
          t.acc = accumulate s.acc (octetD (octetAt s s.cnt.toNat)) ∧ t.valOut = t.acc ∧ t.count = t.cnt ∧
          t.cause = .noFailure) ∧
      (octetC (octetAt s s.cnt.toNat) = false → s.cnt.toNat + 1 = 10 → legalLead f s.lead = false →
        ∃ t, decodePass f s = .next t ∧ t.st = .failed ∧ t.cnt = s.cnt + 1#4 ∧
          t.acc = accumulate s.acc (octetD (octetAt s s.cnt.toNat)) ∧ t.count = 0#4 ∧
          t.cause = .nonCanonicalMaxLength ∧ t.valOut = Config.freeValOut s.draws)) ∧
    (s.st = .done ∨ s.st = .failed → ∀ k, decodeLoop k f s = .next s)

/-- `OCTET_LAST`: in a buffer of one octet or more, the octet `0ddddddd` is read as a whole sequence of one octet. `COUNT`
is 1 and the value is its group, zero-extended, or by bit 6 sign-extended in the signed form (the closed form of
95_test_vectors.md section 2.4). The decode itself, before its registers are released, ends in DONE with `CNT` = 1 and the
octet in `OCT` and `LEAD`. Model's choice: the meaning of an octet row (log 1), its form (log 6), and what its registers
hold after the decode and once released (log 5). -/
def Obligations.OctetLastIsAWholeSequence : Prop :=
  ∀ (d : Group) (s : State), s.len ≠ 0 →
    ∃ u t, decodeFirst (formOf s.op) (octetOf false d) s = .next u ∧ exec (.octetLast d) s = .next t ∧
      t = withWorkingOf u State.reset ∧ u.st = .done ∧ u.cnt = 1#4 ∧ u.decOct.toNat = d.toNat ∧
      u.lead.toNat = d.toNat ∧ t.count = 1#4 ∧
      t.valOut = (match formOf s.op with
        | .unsigned => d.setWidth 64
        | .signed => d.signExtend 64)

/-- `OCTET_CONT`: the octet `1ddddddd` is read as the first of several. Where, with it at offset 0, the buffer begins with
a sequence of `n` octets, at ten with a legal lead, `COUNT` is `n` and `VAL_OUT` the value of that sequence in the form of
`OP[1]`; where no octet of the first ten ends it, `COUNT` is 0. The decode itself, before its registers are released,
ends in DONE with the octet in `LEAD`, or in FAILED. Model's choice: the meaning of an octet row (log 1), its form
(log 6), and what its registers hold after the decode and once released (log 5). -/
def Obligations.OctetContBeginsSequence : Prop :=
  ∀ (d : Group) (s u : State), s.len ≠ 0 → u = { s with mem := Memory.write s.mem 0 (octetOf true d) } →
    (∀ n, hasLength u n → (n = 10 → legalLead (formOf s.op) (octetOf true d) = true) →
      ∃ v t, decodeFirst (formOf s.op) (octetOf true d) s = .next v ∧ exec (.octetCont d) s = .next t ∧
        t = withWorkingOf v State.reset ∧ v.st = .done ∧ v.lead.toNat = 128 + d.toNat ∧ t.count.toNat = n ∧
        (formOf s.op = .unsigned → t.valOut.toNat = unsignedValue u n) ∧
        (formOf s.op = .signed → t.valOut.toInt = signedValue u n)) ∧
    (hasLength u 10 → legalLead (formOf s.op) (octetOf true d) = false →
      ∃ v t, decodeFirst (formOf s.op) (octetOf true d) s = .next v ∧ exec (.octetCont d) s = .next t ∧
        t = withWorkingOf v State.reset ∧ v.st = .failed ∧ t.count = 0#4) ∧
    (truncatedInput u ∨ overlongInput u →
      ∃ v t, decodeFirst (formOf s.op) (octetOf true d) s = .next v ∧ exec (.octetCont d) s = .next t ∧
        t = withWorkingOf v State.reset ∧ v.st = .failed ∧ t.count = 0#4)

/-- `OCTET_CONT` and `OCTET_LAST` are what the decoder of their form does on a buffer with that octet at offset 0, in every
register and port but the buffer, which a decode does not write; in an empty buffer they are not read and fail as its
decoder does, whose procedures both end in FAILED. Model's choice: the meaning of an octet row (log 1), its form (log 6),
what the registers hold after the operation (log 5), and FAILED where `DECS` or an octet row has no octet (log 10). -/
def Obligations.OctetRowIsItsDecode : Prop :=
  ∀ (o : Octet) (s : State),
    (s.len ≠ 0 → ∃ t, exec (decodeInstr (formOf s.op)) { s with mem := Memory.write s.mem 0 o } = .next t ∧
      exec (decodeOctet o) s = .next { t with mem := s.mem }) ∧
    (s.len = 0 → ∃ t, exec (decodeInstr (formOf s.op)) s = .next t ∧ exec (decodeOctet o) s = .next t ∧
      t.count = 0#4 ∧ ∃ v w, decodeWhole (formOf s.op) s = .next v ∧ decodeFirst (formOf s.op) o s = .next w ∧
        v.st = .failed ∧ w.st = .failed)

/-- Frame of `OCTET_CONT` and `OCTET_LAST`: a next state leaves the input ports and the whole buffer, as that of any decode
(R13, R29), and is the state `u` the decode answers, with every working register released (R31). The decode itself writes
no register of the encoder, and in an empty buffer, where no octet is read, none of `ACC`, `CNT`, its `OCT` and `LEAD`.
Model's choice: the meaning of an octet row (log 1), its form (log 6), what a released register holds (log 5), that `OCT`
is two registers (log 11), and what an empty buffer leaves (log 10). -/
def Obligations.OctetFrame : Prop :=
  ∀ (o : Octet) (s t : State), exec (decodeOctet o) s = .next t →
    t.op = s.op ∧ t.valIn = s.valIn ∧ t.len = s.len ∧ (∀ a, octetAt t a = octetAt s a) ∧
    ∃ u, decodeFirst (formOf s.op) o s = .next u ∧ t = withWorkingOf u State.reset ∧ u.n = s.n ∧ u.w = s.w ∧
      u.idx = s.idx ∧ u.encOct = s.encOct ∧
      (s.len = 0 → u.acc = s.acc ∧ u.cnt = s.cnt ∧ u.decOct = s.decOct ∧ u.lead = s.lead)

/-- An operation is its transitions: the whole `DECU`, and the whole `DECS` of a buffer that is not empty, are what the
state machine reaches transition by transition from the registers a decode starts from, in at most 11 transitions and in
READING until the last (R62, R64, R65), with its registers then released (R31). Model's choice: that the last transition,
into DONE or FAILED, already drives the outputs (log 12), and what a released register holds (log 5). -/
def Obligations.DecodeIsItsTransitions : Prop :=
  ∀ s : State,
    (∃ t, reachedByTransitions .unsigned (startDecode 0 s) (.next t) ∧
      exec .decu s = .next (withWorkingOf t State.reset)) ∧
    (s.len ≠ 0 → ∃ t, reachedByTransitions .signed
      (startDecode (signedSeed (signIndicator (octetAt s 0))) { s with lead := octetAt s 0 }) (.next t) ∧
      exec .decs s = .next (withWorkingOf t State.reset))

/-! ### Encode and decode together -/

/-- Round trip, unsigned (R61, R66): after `ENCU` with room, `DECU` on the same buffer gives the value and the count
back. -/
def Obligations.RoundTripUnsigned : Prop :=
  ∀ s : State, usize s.valIn ≤ s.len →
    ∃ t u, exec .encu s = .next t ∧ exec .decu t = .next u ∧ u.valOut = s.valIn ∧ u.count = t.count ∧
      u.count.toNat = usize s.valIn ∧ u.mem = t.mem

/-- Round trip, signed (R61, R66): after `ENCS` with room, `DECS` on the same buffer gives the value and the count
back. -/
def Obligations.RoundTripSigned : Prop :=
  ∀ s : State, ssize s.valIn ≤ s.len →
    ∃ t u, exec .encs s = .next t ∧ exec .decs t = .next u ∧ u.valOut = s.valIn ∧ u.count = t.count ∧
      u.count.toNat = ssize s.valIn ∧ u.mem = t.mem

/-- Re-encoding the value of an accepted sequence is never longer than the sequence (R66, derived by the spec): no
value has a valid sequence shorter than the one its encoder writes (R61, minimality). -/
def Obligations.ReencodingIsNeverLonger : Prop :=
  ∀ (f : Form) (s t : State), exec (decodeInstr f) s = .next t → t.count ≠ 0#4 →
    size f t.valOut ≤ t.count.toNat

/-- The canonical encoding is unique (R44): a sequence that a decoder accepts, with as many octets as the encoder needs
for its value, is octet for octet what the encoder writes, into any buffer with room. -/
def Obligations.CanonicalEncodingIsUnique : Prop :=
  ∀ (f : Form) (s t u : State), exec (decodeInstr f) s = .next t → t.count ≠ 0#4 → size f t.valOut = t.count.toNat →
    u.valIn = t.valOut → size f u.valIn ≤ u.len →
    ∃ v, exec (encodeInstr f) u = .next v ∧ v.count = t.count ∧
      ∀ k, k < t.count.toNat → octetAt v k = octetAt s k

/-- R33: an encode performed again with the same value and length stores the same octets, and a decode performed again
on the same buffer gives the same result; a decode leaves every octet as it was. -/
def Obligations.OperationsAreRepeatable : Prop :=
  ∀ (f : Form) (s : State),
    (∃ t u, exec (encodeInstr f) s = .next t ∧ exec (encodeInstr f) t = .next u ∧ u.count = t.count ∧
      ∀ a, octetAt u a = octetAt t a) ∧
    (∃ t u, exec (decodeInstr f) s = .next t ∧ exec (decodeInstr f) t = .next u ∧ u.count = t.count ∧
      (t.count ≠ 0#4 → u.valOut = t.valOut) ∧ ∀ a, octetAt t a = octetAt s a ∧ octetAt u a = octetAt s a)

/-! ### The whole machine -/

/-- R11: the answer of an operation is a function of `OP`, `VAL_IN`, `LEN` and the buffer alone. Presented to the block in
any two states, the same operation gives the same count, the same buffer and, after a decode with `COUNT` > 0, the same
value. `present` is the caller's move of log 7. -/
def Obligations.AnswersDependOnInputsAlone : Prop :=
  ∀ (op : BitVec 2) (v : Word) (buf : List Octet) (s u : State),
    ∃ t w, step (present op v buf s) = .next t ∧ step (present op v buf u) = .next w ∧
      sameAnswer (op.getLsbD 0) t w

/-- No row resumes from saved state (R4): whatever the working registers hold, `ST` in READING among them, a row of the
table gives the same next state, its `COUNT`, `CAUSE`, `VAL_OUT` and buffer with it; and the decode a row performs ends
in DONE or FAILED (R66). Model's choice: that `VAL_OUT` is the same where the spec leaves it undefined, the free value of
log 2; the working registers after the operation (log 5); the meaning and form of the octet rows (logs 1, 6); FAILED
where `DECS` or an octet row has no octet (log 10). -/
def Obligations.NoRowResumesSavedState : Prop :=
  ∀ s u : State,
    (∀ i : Instr, ∃ t, exec i s = .next t ∧ exec i (withWorkingOf s u) = .next t) ∧
    (∀ f : Form, ∃ t, decodeWhole f (withWorkingOf s u) = .next t ∧ t.st ≠ .reading) ∧
    ∀ (f : Form) (o : Octet), ∃ t, decodeFirst f o (withWorkingOf s u) = .next t ∧ t.st ≠ .reading

/-- Only min(`LEN`, 10) matters (R30, derived by the spec): an operation with another `LEN` of the same minimum gives the
same count, value and buffer. That the rest of the next state is the same too is the model's choice: `VAL_OUT` where the
spec leaves it any value is one free value (log 2), and the working registers are as after reset (log 5). -/
def Obligations.LenMattersUpToTen : Prop :=
  ∀ (i : Instr) (s : State) (len : Nat), isOperation i = true → min len 10 = min s.len 10 →
    ∃ t, exec i s = .next t ∧ exec i { s with len := len } = .next { t with len := len }

/-- No access outside the buffer is ever made and every operation ends (R24, R66): every row, in every state, answers a
next state, and so does every step. Model's choice: that the octet rows `OCTET_CONT` and `OCTET_LAST` are decodes that
answer (log 1). -/
def Obligations.EveryStepAnswers : Prop :=
  ∀ s : State, (∀ i : Instr, ∃ t, exec i s = .next t) ∧ ∃ t, step s = .next t

/-- Every step keeps the invariant: the buffer in canonical form and inside `LEN`, no working register with anything of
an operation (R31), the block idle, every count at most ten (R12, R14, R15, R17, R76). Model's choice: the canonical form
(log 4), and what the working registers hold between operations, the values of reset (logs 3 and 5). -/
def Obligations.StepKeepsInvariant : Prop :=
  ∀ s t : State, Inv s → step s = .next t → Inv t

/-- By R71, a failed operation has written no octet of the buffer, and leaves `VAL_OUT` undefined. Model's choice (log 2):
what is undefined is the free value of the model, of which a claim can rest on no value. -/
def Obligations.FailureLeavesBuffer : Prop :=
  ∀ (i : Instr) (s : State), isOperation i = true →
    ∃ t, exec i s = .next t ∧
      (t.count = 0#4 → (∀ a, octetAt t a = octetAt s a) ∧ t.valOut = Config.freeValOut s.draws)

/-- The cause each operation ends with (R67, R68), the spec's own diagnostic output (its decisions D4 and D5): exactly
under the condition of each failure, no failure otherwise; the code is 0 if and only if `COUNT` > 0, and is never 5, 6
or 7. -/
def Obligations.CauseNamesTheFailure : Prop :=
  ∀ (f : Form) (s : State),
    (∃ t, exec (encodeInstr f) s = .next t ∧ (causeCode t.cause = 1 ↔ s.len < size f s.valIn) ∧
      (causeCode t.cause = 0 ↔ size f s.valIn ≤ s.len) ∧ (causeCode t.cause = 0 ↔ 0 < t.count.toNat)) ∧
    (∃ t, exec (decodeInstr f) s = .next t ∧ (causeCode t.cause = 2 ↔ truncatedInput s) ∧
      (causeCode t.cause = 3 ↔ overlongInput s) ∧ (causeCode t.cause = 4 ↔ wrongLead f s) ∧
      (causeCode t.cause = 0 ↔ 0 < t.count.toNat) ∧ causeCode t.cause ≠ 1 ∧ (causeCode t.cause).toNat ≤ 4)

/-- The codec retains nothing: after an operation it holds no copy of any octet (R31) and is in the same condition after
a success, a failure and a reset (R11, R18, R72). Whatever the state, every working register of R14 and R15 is then as
reset has it, after every row and after every step. Model's choice: that a register with nothing in it is as after reset
(log 5), what reset has there (log 3), and the meaning of the octet rows (log 1). -/
def Obligations.NothingIsRetained : Prop :=
  ∀ s : State,
    (∀ i : Instr, ∃ t, exec i s = .next t ∧ withWorkingOf t State.reset = t) ∧
    ∃ t, step s = .next t ∧ withWorkingOf t State.reset = t
end

