-- ==== Sys2Proof/Laws/State.lean ====
section
/-! SUPPORT. One lemma per field for each named update of the state, so that no proof unfolds a record update. -/

namespace Sys2Proof.Machine

section undefineValOut
variable (s : State)
@[simp] theorem undefineValOut_op : (undefineValOut s).op = s.op := rfl
@[simp] theorem undefineValOut_valIn : (undefineValOut s).valIn = s.valIn := rfl
@[simp] theorem undefineValOut_len : (undefineValOut s).len = s.len := rfl
@[simp] theorem undefineValOut_mem : (undefineValOut s).mem = s.mem := rfl
@[simp] theorem undefineValOut_count : (undefineValOut s).count = s.count := rfl
@[simp] theorem undefineValOut_valOut : (undefineValOut s).valOut = Config.freeValOut s.draws := rfl
@[simp] theorem undefineValOut_cause : (undefineValOut s).cause = s.cause := rfl
@[simp] theorem undefineValOut_n : (undefineValOut s).n = s.n := rfl
@[simp] theorem undefineValOut_w : (undefineValOut s).w = s.w := rfl
@[simp] theorem undefineValOut_idx : (undefineValOut s).idx = s.idx := rfl
@[simp] theorem undefineValOut_encOct : (undefineValOut s).encOct = s.encOct := rfl
@[simp] theorem undefineValOut_acc : (undefineValOut s).acc = s.acc := rfl
@[simp] theorem undefineValOut_cnt : (undefineValOut s).cnt = s.cnt := rfl
@[simp] theorem undefineValOut_st : (undefineValOut s).st = s.st := rfl
@[simp] theorem undefineValOut_decOct : (undefineValOut s).decOct = s.decOct := rfl
@[simp] theorem undefineValOut_lead : (undefineValOut s).lead = s.lead := rfl
@[simp] theorem undefineValOut_draws : (undefineValOut s).draws = s.draws + 1 := rfl
end undefineValOut

section raise
variable (c : Cause) (s : State)
@[simp] theorem raise_op : (raise c s).op = s.op := rfl
@[simp] theorem raise_valIn : (raise c s).valIn = s.valIn := rfl
@[simp] theorem raise_len : (raise c s).len = s.len := rfl
@[simp] theorem raise_mem : (raise c s).mem = s.mem := rfl
@[simp] theorem raise_count : (raise c s).count = 0#4 := rfl
@[simp] theorem raise_valOut : (raise c s).valOut = Config.freeValOut s.draws := rfl
@[simp] theorem raise_cause : (raise c s).cause = c := rfl
@[simp] theorem raise_n : (raise c s).n = s.n := rfl
@[simp] theorem raise_w : (raise c s).w = s.w := rfl
@[simp] theorem raise_idx : (raise c s).idx = s.idx := rfl
@[simp] theorem raise_encOct : (raise c s).encOct = s.encOct := rfl
@[simp] theorem raise_acc : (raise c s).acc = s.acc := rfl
@[simp] theorem raise_cnt : (raise c s).cnt = s.cnt := rfl
@[simp] theorem raise_st : (raise c s).st = s.st := rfl
@[simp] theorem raise_decOct : (raise c s).decOct = s.decOct := rfl
@[simp] theorem raise_lead : (raise c s).lead = s.lead := rfl
@[simp] theorem raise_draws : (raise c s).draws = s.draws + 1 := rfl
end raise

section failDecode
variable (c : Cause) (s : State)
@[simp] theorem failDecode_op : (failDecode c s).op = s.op := rfl
@[simp] theorem failDecode_valIn : (failDecode c s).valIn = s.valIn := rfl
@[simp] theorem failDecode_len : (failDecode c s).len = s.len := rfl
@[simp] theorem failDecode_mem : (failDecode c s).mem = s.mem := rfl
@[simp] theorem failDecode_count : (failDecode c s).count = 0#4 := rfl
@[simp] theorem failDecode_valOut : (failDecode c s).valOut = Config.freeValOut s.draws := rfl
@[simp] theorem failDecode_cause : (failDecode c s).cause = c := rfl
@[simp] theorem failDecode_n : (failDecode c s).n = s.n := rfl
@[simp] theorem failDecode_w : (failDecode c s).w = s.w := rfl
@[simp] theorem failDecode_idx : (failDecode c s).idx = s.idx := rfl
@[simp] theorem failDecode_encOct : (failDecode c s).encOct = s.encOct := rfl
@[simp] theorem failDecode_acc : (failDecode c s).acc = s.acc := rfl
@[simp] theorem failDecode_cnt : (failDecode c s).cnt = s.cnt := rfl
@[simp] theorem failDecode_st : (failDecode c s).st = .failed := rfl
@[simp] theorem failDecode_decOct : (failDecode c s).decOct = s.decOct := rfl
@[simp] theorem failDecode_lead : (failDecode c s).lead = s.lead := rfl
@[simp] theorem failDecode_draws : (failDecode c s).draws = s.draws + 1 := rfl
end failDecode

section returnEncode
variable (s : State)
@[simp] theorem returnEncode_op : (returnEncode s).op = s.op := rfl
@[simp] theorem returnEncode_valIn : (returnEncode s).valIn = s.valIn := rfl
@[simp] theorem returnEncode_len : (returnEncode s).len = s.len := rfl
@[simp] theorem returnEncode_mem : (returnEncode s).mem = s.mem := rfl
@[simp] theorem returnEncode_count : (returnEncode s).count = s.n := rfl
@[simp] theorem returnEncode_valOut : (returnEncode s).valOut = Config.freeValOut s.draws := rfl
@[simp] theorem returnEncode_cause : (returnEncode s).cause = .noFailure := rfl
@[simp] theorem returnEncode_n : (returnEncode s).n = s.n := rfl
@[simp] theorem returnEncode_w : (returnEncode s).w = s.w := rfl
@[simp] theorem returnEncode_idx : (returnEncode s).idx = s.idx := rfl
@[simp] theorem returnEncode_encOct : (returnEncode s).encOct = s.encOct := rfl
@[simp] theorem returnEncode_acc : (returnEncode s).acc = s.acc := rfl
@[simp] theorem returnEncode_cnt : (returnEncode s).cnt = s.cnt := rfl
@[simp] theorem returnEncode_st : (returnEncode s).st = s.st := rfl
@[simp] theorem returnEncode_decOct : (returnEncode s).decOct = s.decOct := rfl
@[simp] theorem returnEncode_lead : (returnEncode s).lead = s.lead := rfl
@[simp] theorem returnEncode_draws : (returnEncode s).draws = s.draws + 1 := rfl
end returnEncode

section returnDecode
variable (s : State)
@[simp] theorem returnDecode_op : (returnDecode s).op = s.op := rfl
@[simp] theorem returnDecode_valIn : (returnDecode s).valIn = s.valIn := rfl
@[simp] theorem returnDecode_len : (returnDecode s).len = s.len := rfl
@[simp] theorem returnDecode_mem : (returnDecode s).mem = s.mem := rfl
@[simp] theorem returnDecode_count : (returnDecode s).count = s.cnt := rfl
@[simp] theorem returnDecode_valOut : (returnDecode s).valOut = s.acc := rfl
@[simp] theorem returnDecode_cause : (returnDecode s).cause = .noFailure := rfl
@[simp] theorem returnDecode_n : (returnDecode s).n = s.n := rfl
@[simp] theorem returnDecode_w : (returnDecode s).w = s.w := rfl
@[simp] theorem returnDecode_idx : (returnDecode s).idx = s.idx := rfl
@[simp] theorem returnDecode_encOct : (returnDecode s).encOct = s.encOct := rfl
@[simp] theorem returnDecode_acc : (returnDecode s).acc = s.acc := rfl
@[simp] theorem returnDecode_cnt : (returnDecode s).cnt = s.cnt := rfl
@[simp] theorem returnDecode_st : (returnDecode s).st = s.st := rfl
@[simp] theorem returnDecode_decOct : (returnDecode s).decOct = s.decOct := rfl
@[simp] theorem returnDecode_lead : (returnDecode s).lead = s.lead := rfl
@[simp] theorem returnDecode_draws : (returnDecode s).draws = s.draws := rfl
end returnDecode

section completeDecode
variable (s : State)
@[simp] theorem completeDecode_op : (completeDecode s).op = s.op := rfl
@[simp] theorem completeDecode_valIn : (completeDecode s).valIn = s.valIn := rfl
@[simp] theorem completeDecode_len : (completeDecode s).len = s.len := rfl
@[simp] theorem completeDecode_mem : (completeDecode s).mem = s.mem := rfl
@[simp] theorem completeDecode_count : (completeDecode s).count = s.cnt := rfl
@[simp] theorem completeDecode_valOut : (completeDecode s).valOut = s.acc := rfl
@[simp] theorem completeDecode_cause : (completeDecode s).cause = .noFailure := rfl
@[simp] theorem completeDecode_n : (completeDecode s).n = s.n := rfl
@[simp] theorem completeDecode_w : (completeDecode s).w = s.w := rfl
@[simp] theorem completeDecode_idx : (completeDecode s).idx = s.idx := rfl
@[simp] theorem completeDecode_encOct : (completeDecode s).encOct = s.encOct := rfl
@[simp] theorem completeDecode_acc : (completeDecode s).acc = s.acc := rfl
@[simp] theorem completeDecode_cnt : (completeDecode s).cnt = s.cnt := rfl
@[simp] theorem completeDecode_st : (completeDecode s).st = .done := rfl
@[simp] theorem completeDecode_decOct : (completeDecode s).decOct = s.decOct := rfl
@[simp] theorem completeDecode_lead : (completeDecode s).lead = s.lead := rfl
@[simp] theorem completeDecode_draws : (completeDecode s).draws = s.draws := rfl
end completeDecode

section startEncode
variable (f : Form) (s : State)
@[simp] theorem startEncode_op : (startEncode f s).op = s.op := rfl
@[simp] theorem startEncode_valIn : (startEncode f s).valIn = s.valIn := rfl
@[simp] theorem startEncode_len : (startEncode f s).len = s.len := rfl
@[simp] theorem startEncode_mem : (startEncode f s).mem = s.mem := rfl
@[simp] theorem startEncode_count : (startEncode f s).count = s.count := rfl
@[simp] theorem startEncode_valOut : (startEncode f s).valOut = s.valOut := rfl
@[simp] theorem startEncode_cause : (startEncode f s).cause = s.cause := rfl
@[simp] theorem startEncode_n : (startEncode f s).n = BitVec.ofNat 4 (size f s.valIn) := rfl
@[simp] theorem startEncode_w : (startEncode f s).w = s.valIn := rfl
@[simp] theorem startEncode_idx : (startEncode f s).idx = BitVec.ofNat 4 (size f s.valIn) := rfl
@[simp] theorem startEncode_encOct : (startEncode f s).encOct = s.encOct := rfl
@[simp] theorem startEncode_acc : (startEncode f s).acc = s.acc := rfl
@[simp] theorem startEncode_cnt : (startEncode f s).cnt = s.cnt := rfl
@[simp] theorem startEncode_st : (startEncode f s).st = s.st := rfl
@[simp] theorem startEncode_decOct : (startEncode f s).decOct = s.decOct := rfl
@[simp] theorem startEncode_lead : (startEncode f s).lead = s.lead := rfl
@[simp] theorem startEncode_draws : (startEncode f s).draws = s.draws := rfl
end startEncode

section startDecode
variable (v : Word) (s : State)
@[simp] theorem startDecode_op : (startDecode v s).op = s.op := rfl
@[simp] theorem startDecode_valIn : (startDecode v s).valIn = s.valIn := rfl
@[simp] theorem startDecode_len : (startDecode v s).len = s.len := rfl
@[simp] theorem startDecode_mem : (startDecode v s).mem = s.mem := rfl
@[simp] theorem startDecode_count : (startDecode v s).count = s.count := rfl
@[simp] theorem startDecode_valOut : (startDecode v s).valOut = s.valOut := rfl
@[simp] theorem startDecode_cause : (startDecode v s).cause = s.cause := rfl
@[simp] theorem startDecode_n : (startDecode v s).n = s.n := rfl
@[simp] theorem startDecode_w : (startDecode v s).w = s.w := rfl
@[simp] theorem startDecode_idx : (startDecode v s).idx = s.idx := rfl
@[simp] theorem startDecode_encOct : (startDecode v s).encOct = s.encOct := rfl
@[simp] theorem startDecode_acc : (startDecode v s).acc = v := rfl
@[simp] theorem startDecode_cnt : (startDecode v s).cnt = 0#4 := rfl
@[simp] theorem startDecode_st : (startDecode v s).st = .reading := rfl
@[simp] theorem startDecode_decOct : (startDecode v s).decOct = s.decOct := rfl
@[simp] theorem startDecode_lead : (startDecode v s).lead = s.lead := rfl
@[simp] theorem startDecode_draws : (startDecode v s).draws = s.draws := rfl
end startDecode

section consumeOctet
variable (o : Octet) (s : State)
@[simp] theorem consumeOctet_op : (consumeOctet o s).op = s.op := rfl
@[simp] theorem consumeOctet_valIn : (consumeOctet o s).valIn = s.valIn := rfl
@[simp] theorem consumeOctet_len : (consumeOctet o s).len = s.len := rfl
@[simp] theorem consumeOctet_mem : (consumeOctet o s).mem = s.mem := rfl
@[simp] theorem consumeOctet_count : (consumeOctet o s).count = s.count := rfl
@[simp] theorem consumeOctet_valOut : (consumeOctet o s).valOut = s.valOut := rfl
@[simp] theorem consumeOctet_cause : (consumeOctet o s).cause = s.cause := rfl
@[simp] theorem consumeOctet_n : (consumeOctet o s).n = s.n := rfl
@[simp] theorem consumeOctet_w : (consumeOctet o s).w = s.w := rfl
@[simp] theorem consumeOctet_idx : (consumeOctet o s).idx = s.idx := rfl
@[simp] theorem consumeOctet_encOct : (consumeOctet o s).encOct = s.encOct := rfl
@[simp] theorem consumeOctet_acc : (consumeOctet o s).acc = accumulate s.acc (octetD o) := rfl
@[simp] theorem consumeOctet_cnt : (consumeOctet o s).cnt = s.cnt + 1#4 := rfl
@[simp] theorem consumeOctet_st : (consumeOctet o s).st = s.st := rfl
@[simp] theorem consumeOctet_decOct : (consumeOctet o s).decOct = o := rfl
@[simp] theorem consumeOctet_lead : (consumeOctet o s).lead = if s.cnt = 0#4 then o else s.lead := rfl
@[simp] theorem consumeOctet_draws : (consumeOctet o s).draws = s.draws := rfl
end consumeOctet

section present
variable (p : BitVec 2) (v : Word) (b : List Octet) (s : State)
@[simp] theorem present_op : (present p v b s).op = p := rfl
@[simp] theorem present_valIn : (present p v b s).valIn = v := rfl
@[simp] theorem present_len : (present p v b s).len = b.length := rfl
@[simp] theorem present_mem : (present p v b s).mem = Memory.ofOctetsFrom 0 b := rfl
@[simp] theorem present_count : (present p v b s).count = s.count := rfl
@[simp] theorem present_valOut : (present p v b s).valOut = s.valOut := rfl
@[simp] theorem present_cause : (present p v b s).cause = s.cause := rfl
@[simp] theorem present_n : (present p v b s).n = s.n := rfl
@[simp] theorem present_w : (present p v b s).w = s.w := rfl
@[simp] theorem present_idx : (present p v b s).idx = s.idx := rfl
@[simp] theorem present_encOct : (present p v b s).encOct = s.encOct := rfl
@[simp] theorem present_acc : (present p v b s).acc = s.acc := rfl
@[simp] theorem present_cnt : (present p v b s).cnt = s.cnt := rfl
@[simp] theorem present_st : (present p v b s).st = s.st := rfl
@[simp] theorem present_decOct : (present p v b s).decOct = s.decOct := rfl
@[simp] theorem present_lead : (present p v b s).lead = s.lead := rfl
@[simp] theorem present_draws : (present p v b s).draws = s.draws := rfl
end present

section withWorkingOf
variable (s u : State)
@[simp] theorem withWorkingOf_op : (withWorkingOf s u).op = s.op := rfl
@[simp] theorem withWorkingOf_valIn : (withWorkingOf s u).valIn = s.valIn := rfl
@[simp] theorem withWorkingOf_len : (withWorkingOf s u).len = s.len := rfl
@[simp] theorem withWorkingOf_mem : (withWorkingOf s u).mem = s.mem := rfl
@[simp] theorem withWorkingOf_count : (withWorkingOf s u).count = s.count := rfl
@[simp] theorem withWorkingOf_valOut : (withWorkingOf s u).valOut = s.valOut := rfl
@[simp] theorem withWorkingOf_cause : (withWorkingOf s u).cause = s.cause := rfl
@[simp] theorem withWorkingOf_n : (withWorkingOf s u).n = u.n := rfl
@[simp] theorem withWorkingOf_w : (withWorkingOf s u).w = u.w := rfl
@[simp] theorem withWorkingOf_idx : (withWorkingOf s u).idx = u.idx := rfl
@[simp] theorem withWorkingOf_encOct : (withWorkingOf s u).encOct = u.encOct := rfl
@[simp] theorem withWorkingOf_acc : (withWorkingOf s u).acc = u.acc := rfl
@[simp] theorem withWorkingOf_cnt : (withWorkingOf s u).cnt = u.cnt := rfl
@[simp] theorem withWorkingOf_st : (withWorkingOf s u).st = u.st := rfl
@[simp] theorem withWorkingOf_decOct : (withWorkingOf s u).decOct = u.decOct := rfl
@[simp] theorem withWorkingOf_lead : (withWorkingOf s u).lead = u.lead := rfl
@[simp] theorem withWorkingOf_draws : (withWorkingOf s u).draws = s.draws := rfl
end withWorkingOf

section release
variable (s : State)
@[simp] theorem release_op : (release s).op = s.op := rfl
@[simp] theorem release_valIn : (release s).valIn = s.valIn := rfl
@[simp] theorem release_len : (release s).len = s.len := rfl
@[simp] theorem release_mem : (release s).mem = s.mem := rfl
@[simp] theorem release_count : (release s).count = s.count := rfl
@[simp] theorem release_valOut : (release s).valOut = s.valOut := rfl
@[simp] theorem release_cause : (release s).cause = s.cause := rfl
@[simp] theorem release_n : (release s).n = 0 := rfl
@[simp] theorem release_w : (release s).w = 0 := rfl
@[simp] theorem release_idx : (release s).idx = 0 := rfl
@[simp] theorem release_encOct : (release s).encOct = 0 := rfl
@[simp] theorem release_acc : (release s).acc = 0 := rfl
@[simp] theorem release_cnt : (release s).cnt = 0 := rfl
@[simp] theorem release_st : (release s).st = .done := rfl
@[simp] theorem release_decOct : (release s).decOct = 0 := rfl
@[simp] theorem release_lead : (release s).lead = 0 := rfl
@[simp] theorem release_draws : (release s).draws = s.draws := rfl
end release

/-- What the model reads at an offset depends on the buffer alone. -/
theorem octetAt_congr {s t : State} (h : t.mem = s.mem) (a : Nat) : octetAt t a = octetAt s a := by
  simp only [octetAt, h]

@[simp] theorem octetAt_startDecode (v : Word) (s : State) (a : Nat) : octetAt (startDecode v s) a = octetAt s a := rfl

@[simp] theorem octetAt_consumeOctet (o : Octet) (s : State) (a : Nat) : octetAt (consumeOctet o s) a = octetAt s a :=
  rfl

@[simp] theorem octetAt_raise (c : Cause) (s : State) (a : Nat) : octetAt (raise c s) a = octetAt s a := rfl

@[simp] theorem octetAt_failDecode (c : Cause) (s : State) (a : Nat) : octetAt (failDecode c s) a = octetAt s a := rfl

@[simp] theorem octetAt_release (s : State) (a : Nat) : octetAt (release s) a = octetAt s a := rfl

@[simp] theorem octetAt_completeDecode (s : State) (a : Nat) : octetAt (completeDecode s) a = octetAt s a := rfl

end Sys2Proof.Machine
end

