-- ==== Sys2Proof/Laws/Memory.lean ====
section
/-! SUPPORT. The laws of the buffer: reads after writes (on every list, canonical or not), the canonical form kept by
every operation, and the offsets listed. -/

namespace Sys2Proof.Machine

theorem Memory.read_erase (m : Memory) (a b : Nat) :
    Memory.read (Memory.erase m a) b = if b = a then Config.unlisted else Memory.read m b := by
  induction m with
  | nil => simp [Memory.erase, Memory.read]
  | cons c m ih =>
    simp only [Memory.erase] at ih
    by_cases hc : c.1 = a
    · simp only [Memory.erase, List.filter_cons, hc, bne_self_eq_false, Bool.false_eq_true, if_false, ih,
        Memory.read]
      by_cases hb : b = a
      · simp [hb]
      · simp [hb, Ne.symm hb]
    · simp only [Memory.erase, List.filter_cons, bne_iff_ne.mpr hc, if_true, Memory.read, ih]
      by_cases hb : b = a
      · subst hb; simp [hc]
      · simp [hb]

theorem Memory.read_insert (m : Memory) (a b : Nat) (o : Octet) (h : ∀ c ∈ m, c.1 ≠ a) :
    Memory.read (Memory.insert m a o) b = if b = a then o else Memory.read m b := by
  induction m with
  | nil => simp only [Memory.insert, Memory.read, eq_comm]
  | cons c m ih =>
    have hm := ih fun d hd => h d (List.mem_cons_of_mem _ hd)
    have hc := h c List.mem_cons_self
    simp only [Memory.insert]
    split
    · simp only [Memory.read, eq_comm]
    · simp only [Memory.read, hm]
      by_cases hb : b = a
      · subst hb; simp [hc]
      · simp [hb]

theorem Memory.mem_erase {m : Memory} {a : Nat} {c : Host.Cell} :
    c ∈ Memory.erase m a ↔ c ∈ m ∧ c.1 ≠ a := by
  simp [Memory.erase]

theorem Memory.mem_insert {m : Memory} {a : Nat} {o : Octet} {c : Host.Cell} :
    c ∈ Memory.insert m a o ↔ c = (a, o) ∨ c ∈ m := by
  induction m with
  | nil => simp [Memory.insert]
  | cons d m ih =>
    simp only [Memory.insert]
    split
    · simp
    · simp only [List.mem_cons, ih]; tauto

/-- READ AFTER WRITE: the octet written at its offset, every other offset as before. -/
theorem Memory.read_write (m : Memory) (a b : Nat) (o : Octet) :
    Memory.read (Memory.write m a o) b = if b = a then o else Memory.read m b := by
  simp only [Memory.write]
  split
  · next h => simp only [Memory.read_erase, h]
  · rw [Memory.read_insert _ _ _ _ fun c hc => (Memory.mem_erase.mp hc).2, Memory.read_erase]
    split <;> rfl

@[simp] theorem Memory.read_write_same (m : Memory) (a : Nat) (o : Octet) :
    Memory.read (Memory.write m a o) a = o := by
  rw [Memory.read_write, if_pos rfl]

theorem Memory.read_write_other {a b : Nat} (h : b ≠ a) (m : Memory) (o : Octet) :
    Memory.read (Memory.write m a o) b = Memory.read m b := by
  rw [Memory.read_write, if_neg h]

theorem Memory.insert_sorted {m : Memory} {a : Nat} {o : Octet}
    (h : m.Pairwise fun c d => c.1 < d.1) (ha : ∀ c ∈ m, c.1 ≠ a) :
    (Memory.insert m a o).Pairwise fun c d => c.1 < d.1 := by
  induction m with
  | nil => simp [Memory.insert]
  | cons c m ih =>
    obtain ⟨hc, hm⟩ := List.pairwise_cons.mp h
    have hca := ha c List.mem_cons_self
    simp only [Memory.insert]
    split
    · next hlt =>
      refine List.pairwise_cons.mpr ⟨fun d hd => ?_, h⟩
      rcases List.mem_cons.mp hd with rfl | hd
      · exact hlt
      · exact hlt.trans (hc d hd)
    · next hge =>
      refine List.pairwise_cons.mpr ⟨fun d hd => ?_, ih hm fun d hd => ha d (List.mem_cons_of_mem _ hd)⟩
      rcases Memory.mem_insert.mp hd with rfl | hd
      · simp only; omega
      · exact hc d hd

/-- A write keeps the canonical form. -/
theorem Memory.write_wf {m : Memory} (h : Memory.wf m) (a : Nat) (o : Octet) : Memory.wf (Memory.write m a o) := by
  obtain ⟨hs, hu⟩ := h
  have he : (Memory.erase m a).Pairwise fun c d => c.1 < d.1 := hs.filter _
  have hea : ∀ c ∈ Memory.erase m a, c.1 ≠ a := fun c hc => (Memory.mem_erase.mp hc).2
  have heu : ∀ c ∈ Memory.erase m a, c.2 ≠ Config.unlisted := fun c hc => hu c (Memory.mem_erase.mp hc).1
  simp only [Memory.write]
  split
  · exact ⟨he, heu⟩
  · next ho =>
    refine ⟨Memory.insert_sorted he hea, fun c hc => ?_⟩
    rcases Memory.mem_insert.mp hc with rfl | hc
    · exact ho
    · exact heu c hc

/-- The offsets listed after a write: those listed before, and the one written. -/
theorem Memory.mem_write_offset {m : Memory} {a : Nat} {o : Octet} {c : Host.Cell} (h : c ∈ Memory.write m a o) :
    c.1 = a ∨ c ∈ m := by
  simp only [Memory.write] at h
  split at h
  · exact .inr (Memory.mem_erase.mp h).1
  · rcases Memory.mem_insert.mp h with rfl | hc
    · exact .inl rfl
    · exact .inr (Memory.mem_erase.mp hc).1

theorem Memory.ofOctetsFrom_offset {os : List Octet} {a : Nat} {c : Host.Cell}
    (h : c ∈ Memory.ofOctetsFrom a os) : a ≤ c.1 ∧ c.1 < a + os.length ∧ c.2 ≠ Config.unlisted := by
  induction os generalizing a with
  | nil => simp [Memory.ofOctetsFrom] at h
  | cons o os ih =>
    simp only [Memory.ofOctetsFrom] at h
    simp only [List.length_cons]
    split at h
    · obtain ⟨h₁, h₂, h₃⟩ := ih h
      exact ⟨by omega, by omega, h₃⟩
    · next ho =>
      rcases List.mem_cons.mp h with rfl | h
      · exact ⟨le_rfl, by simp only; omega, ho⟩
      · obtain ⟨h₁, h₂, h₃⟩ := ih h
        exact ⟨by omega, by omega, h₃⟩

/-- A buffer the caller presents is in canonical form. -/
theorem Memory.ofOctetsFrom_wf (os : List Octet) (a : Nat) : Memory.wf (Memory.ofOctetsFrom a os) := by
  refine ⟨?_, fun c hc => (Memory.ofOctetsFrom_offset hc).2.2⟩
  induction os generalizing a with
  | nil => simp [Memory.ofOctetsFrom]
  | cons o os ih =>
    simp only [Memory.ofOctetsFrom]
    split
    · exact ih _
    · refine List.pairwise_cons.mpr ⟨fun d hd => ?_, ih _⟩
      have := (Memory.ofOctetsFrom_offset hd).1
      simp only; omega

/-- A buffer the caller presents reads as the octets presented. -/
theorem Memory.read_ofOctetsFrom (os : List Octet) (a k : Nat) :
    Memory.read (Memory.ofOctetsFrom a os) (a + k) = os.getD k Config.unlisted := by
  induction os generalizing a k with
  | nil => simp [Memory.ofOctetsFrom, Memory.read]
  | cons o os ih =>
    have below (m : Memory) (h : ∀ c ∈ m, a + 1 ≤ c.1) : Memory.read m a = Config.unlisted := by
      induction m with
      | nil => rfl
      | cons c m ihm =>
        have := h c List.mem_cons_self
        rw [Memory.read, if_neg (by omega)]
        exact ihm fun d hd => h d (List.mem_cons_of_mem _ hd)
    cases k with
    | zero =>
      simp only [Memory.ofOctetsFrom, Nat.add_zero, List.getD_cons_zero]
      split
      · next ho => rw [below _ fun c hc => (Memory.ofOctetsFrom_offset hc).1, ho]
      · simp [Memory.read]
    | succ k =>
      have hk := ih (a + 1) k
      rw [show a + 1 + k = a + (k + 1) by omega] at hk
      simp only [Memory.ofOctetsFrom, List.getD_cons_succ]
      split
      · exact hk
      · rw [Memory.read, if_neg (by simp only; omega), hk]

/-- `MemRead` inside the buffer (R24). -/
theorem memRead_inside {a : Nat} {s : State} (h : a < s.len) (k : Octet → Result) :
    memRead a s k = k (octetAt s a) := by
  simp only [memRead, if_pos h, octetAt]

/-- `MemWrite` inside the buffer (R24). -/
theorem memWrite_inside {a : Nat} {s : State} (h : a < s.len) (o : Octet) :
    memWrite a o s = .next { s with mem := Memory.write s.mem a o } := by
  simp only [memWrite, if_pos h]

@[simp] theorem andThen_next (s : State) (k : State → Result) : andThen (.next s) k = k s := rfl

end Sys2Proof.Machine
end

