-- ==== Sys2Proof/Laws/Bits.lean ====
section
/-! SUPPORT. The laws of the bit-field helpers: the two fields of an octet, the group of a value, the shifts and the
accumulate step as arithmetic (rules R39, R53, R63). -/

namespace Sys2Proof

@[simp] theorem octetC_octetOf (c : Bool) (d : Group) : octetC (octetOf c d) = c := by
  revert c d; decide

@[simp] theorem octetD_octetOf (c : Bool) (d : Group) : octetD (octetOf c d) = d := by
  revert c d; decide

/-- An octet is its two fields. -/
@[simp] theorem octetOf_fields (o : Octet) : octetOf (octetC o) (octetD o) = o := by
  revert o; decide

theorem octetOf_toNat (c : Bool) (d : Group) :
    (octetOf c d).toNat = d.toNat + if c then 128 else 0 := by
  revert c d; decide

theorem octetD_toNat (o : Octet) : (octetD o).toNat = o.toNat % 128 := by
  revert o; decide

theorem octetC_eq (o : Octet) : octetC o = decide (128 ≤ o.toNat) := by
  revert o; decide

@[simp] theorem decodeOctet_octetOf (c : Bool) (d : Group) :
    decodeOctet (octetOf c d) = if c then .octetCont d else .octetLast d := by
  simp [decodeOctet]

end Sys2Proof

namespace Sys2Proof.Machine

/-- The sign indicator is the top bit of the group. -/
theorem signIndicator_eq (o : Octet) : signIndicator o = decide (64 ≤ (octetD o).toNat) := by
  revert o; decide

theorem digitAt_lt (s : State) (k : Nat) : digitAt s k < 128 := (octetD (octetAt s k)).isLt

theorem lowGroup_toNat (w : Word) : (lowGroup w).toNat = w.toNat % 128 := by
  simp [lowGroup, BitVec.extractLsb'_toNat]

theorem shiftGroup_unsigned_toNat (w : Word) : (shiftGroup .unsigned w).toNat = w.toNat / 128 := by
  simp [shiftGroup, BitVec.toNat_ushiftRight, Nat.shiftRight_eq_div_pow]

theorem shiftGroup_signed_toInt (w : Word) : (shiftGroup .signed w).toInt = w.toInt / 128 := by
  simp [shiftGroup, BitVec.toInt_sshiftRight, Int.shiftRight_eq_div_pow]

theorem accumulate_toNat (acc : Word) (d : Group) :
    (accumulate acc d).toNat = acc.toNat * 128 % 2 ^ 64 + d.toNat := by
  have hd : d.toNat < 2 ^ 7 := d.isLt
  have h : acc.toNat <<< 7 % 2 ^ 64 = 2 ^ 7 * (acc.toNat % 2 ^ 57) := by
    rw [Nat.shiftLeft_eq]; omega
  simp only [accumulate, BitVec.toNat_or, BitVec.toNat_shiftLeft, BitVec.toNat_setWidth,
    Nat.mod_eq_of_lt (show d.toNat < 2 ^ 64 by omega), h]
  rw [← Nat.two_pow_add_eq_or_of_lt hd]
  omega

/-- Accumulating the group a shift took away gives the value back, in either form. -/
theorem accumulate_shiftGroup (f : Form) (w : Word) : accumulate (shiftGroup f w) (lowGroup w) = w := by
  apply BitVec.eq_of_toNat_eq
  rw [accumulate_toNat, lowGroup_toNat]
  have hw : w.toNat < 2 ^ 64 := w.isLt
  cases f with
  | unsigned => rw [shiftGroup_unsigned_toNat]; omega
  | signed =>
    have hs := shiftGroup_signed_toInt w
    have h₁ := BitVec.toInt_eq_toNat_cond w
    have h₂ := BitVec.toInt_eq_toNat_cond (shiftGroup .signed w)
    have h₃ : (shiftGroup .signed w).toNat < 2 ^ 64 := (shiftGroup .signed w).isLt
    split at h₁ <;> split at h₂ <;> omega

/-- The unsigned shift repeated (R59). -/
theorem shiftGroup_unsigned_iterate (j : Nat) (w : Word) : (shiftGroup .unsigned)^[j] w = w >>> (7 * j) := by
  induction j generalizing w with
  | zero => simp
  | succ j ih =>
    rw [Function.iterate_succ_apply, ih, shiftGroup, ← BitVec.shiftRight_add]
    congr 1; omega

/-- The arithmetic shift repeated is division by a power of 128, rounding down (R60). -/
theorem shiftGroup_signed_iterate_toInt (j : Nat) (w : Word) :
    ((shiftGroup .signed)^[j] w).toInt = w.toInt / 2 ^ (7 * j) := by
  induction j generalizing w with
  | zero => simp
  | succ j ih =>
    rw [Function.iterate_succ_apply, ih, shiftGroup_signed_toInt, Int.ediv_ediv_of_nonneg (by norm_num),
      show 7 * (j + 1) = 7 + 7 * j by ring, pow_add]
    norm_num

end Sys2Proof.Machine
end

