-- ==== Sys2Proof/Laws/Decoder.lean ====
section
/-! SUPPORT. What one transition and the whole loop of the decoder can do (rules R62 and R63), said once. -/

namespace Sys2Proof.Machine

/-- What a decode, or one of its transitions, leaves alone: the input ports, the buffer, and every register of the
encoder (R13, R15, R29). -/
structure DecodeKeeps (s t : State) : Prop where
  op : t.op = s.op
  valIn : t.valIn = s.valIn
  len : t.len = s.len
  mem : t.mem = s.mem
  n : t.n = s.n
  w : t.w = s.w
  idx : t.idx = s.idx
  encOct : t.encOct = s.encOct

theorem DecodeKeeps.refl (s : State) : DecodeKeeps s s := ⟨rfl, rfl, rfl, rfl, rfl, rfl, rfl, rfl⟩

theorem DecodeKeeps.trans {s t u : State} (h : DecodeKeeps s t) (k : DecodeKeeps t u) : DecodeKeeps s u :=
  ⟨k.op.trans h.op, k.valIn.trans h.valIn, k.len.trans h.len, k.mem.trans h.mem, k.n.trans h.n, k.w.trans h.w,
    k.idx.trans h.idx, k.encOct.trans h.encOct⟩

theorem failDecode_keeps (c : Cause) (s : State) : DecodeKeeps s (failDecode c s) :=
  ⟨rfl, rfl, rfl, rfl, rfl, rfl, rfl, rfl⟩

theorem startDecode_keeps (v : Word) (s : State) : DecodeKeeps s (startDecode v s) :=
  ⟨rfl, rfl, rfl, rfl, rfl, rfl, rfl, rfl⟩

theorem consumeOctet_keeps (o : Octet) (s : State) : DecodeKeeps s (consumeOctet o s) :=
  ⟨rfl, rfl, rfl, rfl, rfl, rfl, rfl, rfl⟩

/-- The tests before a read (R62, R69): each failure exactly where its test fires, in their order. -/
theorem readingFailure_cases (s : State) :
    (s.cnt = 10#4 ∧ readingFailure s = some .overlong) ∨
    (s.cnt ≠ 10#4 ∧ s.len ≤ s.cnt.toNat ∧ readingFailure s = some .truncatedInput) ∨
    (s.cnt ≠ 10#4 ∧ s.cnt.toNat < s.len ∧ readingFailure s = none) := by
  simp only [readingFailure]
  split
  · exact .inl ⟨‹_›, rfl⟩
  · split
    · exact .inr (.inl ⟨‹_›, ‹_›, rfl⟩)
    · exact .inr (.inr ⟨‹_›, by omega, rfl⟩)

theorem readingFailure_none {s : State} : readingFailure s = none ↔ s.cnt ≠ 10#4 ∧ s.cnt.toNat < s.len := by
  rcases readingFailure_cases s with ⟨h, e⟩ | ⟨h, h', e⟩ | ⟨h, h', e⟩ <;> simp [e, h]
  · omega
  · exact h'

/-- The three reading rows of R62, each with the state it gives. -/
theorem readingOctet_cases (f : Form) (o : Octet) (s : State) :
    (octetC o = true ∧ readingOctet f o s = consumeOctet o s) ∨
    (octetC o = false ∧ ¬((consumeOctet o s).cnt = 10#4 ∧ legalLead f (consumeOctet o s).lead = false) ∧
      readingOctet f o s = completeDecode (consumeOctet o s)) ∨
    (octetC o = false ∧ ((consumeOctet o s).cnt = 10#4 ∧ legalLead f (consumeOctet o s).lead = false) ∧
      readingOctet f o s = failDecode .nonCanonicalMaxLength (consumeOctet o s)) := by
  unfold readingOctet
  split
  · exact .inl ⟨‹_›, rfl⟩
  · next hc =>
    rw [Bool.not_eq_true] at hc
    split
    · exact .inr (.inr ⟨hc, ‹_›, rfl⟩)
    · exact .inr (.inl ⟨hc, ‹_›, rfl⟩)

theorem readingOctet_keeps (f : Form) (o : Octet) (s : State) : DecodeKeeps s (readingOctet f o s) := by
  rcases readingOctet_cases f o s with ⟨_, e⟩ | ⟨_, _, e⟩ | ⟨_, _, e⟩ <;> rw [e] <;>
    exact ⟨rfl, rfl, rfl, rfl, rfl, rfl, rfl, rfl⟩

/-- ONE TRANSITION FROM READING (R62): it answers a next state; it fails with no read where a test fires, and otherwise
takes the octet at offset `CNT`. -/
theorem decodePass_next (f : Form) (s : State) :
    decodePass f s = .next (match readingFailure s with
      | some c => failDecode c s
      | none => readingOctet f (octetAt s s.cnt.toNat) s) := by
  simp only [decodePass]
  cases h : readingFailure s with
  | some c => rfl
  | none => exact memRead_inside (readingFailure_none.mp h).2 _

/-- The loop is over in a terminal state. -/
theorem decodeLoop_terminal (k : Nat) (f : Form) {s : State} (h : s.st ≠ .reading) : decodeLoop k f s = .next s := by
  cases k with
  | zero => rfl
  | succ k => rw [decodeLoop, if_neg h]

theorem decodeLoop_reading (k : Nat) (f : Form) {s : State} (h : s.st = .reading) :
    decodeLoop (k + 1) f s = decodeLoop k f (match readingFailure s with
      | some c => failDecode c s
      | none => readingOctet f (octetAt s s.cnt.toNat) s) := by
  rw [decodeLoop, if_pos h, decodePass_next, andThen_next]

/-- The state after the octets at offsets `CNT`, `CNT`+1, … (as many as given) are consumed (R62, R63). -/
def consumeMany : Nat → State → State
  | 0, s => s
  | k + 1, s => consumeMany k (consumeOctet (octetAt s s.cnt.toNat) s)

theorem consumeMany_keeps (k : Nat) (s : State) : DecodeKeeps s (consumeMany k s) := by
  induction k generalizing s with
  | zero => exact .refl s
  | succ k ih => exact (consumeOctet_keeps _ s).trans (ih _)

/-- The last of the octets consumed, taken off the end. -/
theorem consumeMany_succ (k : Nat) (s : State) :
    consumeMany (k + 1) s = consumeOctet (octetAt (consumeMany k s) (consumeMany k s).cnt.toNat) (consumeMany k s) := by
  induction k generalizing s with
  | zero => rfl
  | succ k ih => exact ih (consumeOctet (octetAt s s.cnt.toNat) s)

theorem consumeMany_st (k : Nat) (s : State) : (consumeMany k s).st = s.st := by
  induction k generalizing s with
  | zero => rfl
  | succ k ih => exact ih _

/-- `CNT` counts the octets consumed. -/
theorem consumeMany_cnt {k : Nat} {s : State} (h : s.cnt.toNat + k ≤ 10) :
    (consumeMany k s).cnt.toNat = s.cnt.toNat + k := by
  induction k generalizing s with
  | zero => rfl
  | succ k ih =>
    have hc : (consumeOctet (octetAt s s.cnt.toNat) s).cnt.toNat = s.cnt.toNat + 1 := by
      simp only [consumeOctet_cnt, BitVec.toNat_add, BitVec.toNat_ofNat]; omega
    rw [consumeMany, ih (by omega), hc]; omega

/-- `LEAD` holds the first octet from the first octet on. -/
theorem consumeMany_lead {k : Nat} {s : State} (h₀ : s.cnt = 0#4) (hk : 1 ≤ k) (h : k ≤ 10) :
    (consumeMany k s).lead = octetAt s 0 := by
  induction k with
  | zero => omega
  | succ k ih =>
    have hc : (consumeMany k s).cnt.toNat = k := by
      rw [consumeMany_cnt (by simp [h₀]; omega)]; simp [h₀]
    rw [consumeMany_succ, consumeOctet_lead]
    rcases Nat.eq_zero_or_pos k with rfl | hpos
    · simp [consumeMany, h₀]
    · rw [if_neg (fun e => by rw [e] at hc; simp at hc; omega), ih hpos (by omega)]

/-- `ACC` after the octets consumed from offset 0 (R63): the seed and the groups, modulo 2^64. -/
theorem consumeMany_acc {k : Nat} {s : State} (h₀ : s.cnt = 0#4) (h : k ≤ 10) :
    (consumeMany (k + 1) s).acc = accumulate (consumeMany k s).acc (octetD (octetAt s k)) := by
  have hc : (consumeMany k s).cnt.toNat = k := by
    rw [consumeMany_cnt (by simp [h₀]; omega)]; simp [h₀]
  rw [consumeMany_succ, consumeOctet_acc, hc, octetAt_congr (consumeMany_keeps k s).mem]

/-- Octets with `C` = 1 are consumed one after another (R62, third row). -/
theorem decodeLoop_consume (f : Form) (j k : Nat) {s : State} (hst : s.st = .reading) (h₁₀ : s.cnt.toNat + j ≤ 10)
    (hlen : s.cnt.toNat + j ≤ s.len) (hC : ∀ i < j, octetC (octetAt s (s.cnt.toNat + i)) = true) :
    decodeLoop (k + j) f s = decodeLoop k f (consumeMany j s) := by
  induction j generalizing s with
  | zero => rfl
  | succ j ih =>
    have hnone : readingFailure s = none :=
      readingFailure_none.mpr ⟨fun e => by rw [e] at h₁₀; simp at h₁₀, by omega⟩
    have hc : octetC (octetAt s s.cnt.toNat) = true := hC 0 (by omega)
    have hread : readingOctet f (octetAt s s.cnt.toNat) s = consumeOctet (octetAt s s.cnt.toNat) s := by
      simp [readingOctet, hc]
    have hcnt : (consumeOctet (octetAt s s.cnt.toNat) s).cnt.toNat = s.cnt.toNat + 1 := by
      simp only [consumeOctet_cnt, BitVec.toNat_add, BitVec.toNat_ofNat]; omega
    rw [← Nat.add_assoc, decodeLoop_reading _ _ hst, hnone]
    simp only [hread]
    refine ih hst (by omega) (by rw [hcnt]; simpa using (by omega : s.cnt.toNat + 1 + j ≤ s.len)) fun i hi => ?_
    rw [hcnt, octetAt_congr (consumeOctet_keeps _ s).mem, Nat.add_assoc, Nat.add_comm 1 i]
    exact hC (i + 1) (by omega)

/-- THE DECODER ON A SEQUENCE OF `n` OCTETS (R62): all are consumed, and the last gives DONE, or FAILED where it is the
10th and the lead is not legal. -/
theorem decodeValue_terminated {f : Form} {seed : Word} {s : State} {n : Nat} (h : hasLength s n) :
    decodeValue f seed s = .next (if n = 10 ∧ legalLead f (octetAt s 0) = false
      then failDecode .nonCanonicalMaxLength (consumeMany n (startDecode seed s))
      else completeDecode (consumeMany n (startDecode seed s))) := by
  obtain ⟨h1, h10, hlen, hC, hlast⟩ := h
  obtain ⟨m, rfl⟩ : ∃ m, n = m + 1 := ⟨n - 1, by omega⟩
  simp only [Nat.add_sub_cancel] at hC hlast
  have hmem := (consumeMany_keeps m (startDecode seed s))
  have hcnt : (consumeMany m (startDecode seed s)).cnt.toNat = m := by
    rw [consumeMany_cnt (by simp; omega)]; simp
  have hst : (consumeMany m (startDecode seed s)).st = .reading := consumeMany_st _ _
  have hoct : octetAt (consumeMany m (startDecode seed s)) m = octetAt s m := octetAt_congr hmem.mem m
  have hnone : readingFailure (consumeMany m (startDecode seed s)) = none := by
    refine readingFailure_none.mpr ⟨fun e => ?_, ?_⟩
    · rw [e] at hcnt; simp at hcnt; omega
    · rw [hcnt, hmem.len]; exact hlen
  have hlead := consumeMany_lead (k := m + 1) (s := startDecode seed s) rfl (by omega) h10
  have hten : (consumeOctet (octetAt s m) (consumeMany m (startDecode seed s))).cnt = 10#4 ↔ m + 1 = 10 := by
    rw [consumeOctet_cnt, ← BitVec.toNat_inj, BitVec.toNat_add, hcnt]; simp; omega
  have hloop := decodeLoop_consume f m (11 - m) (s := startDecode seed s) rfl (by simp; omega) (by simp; omega)
    (fun i hi => by rw [octetAt_startDecode, startDecode_cnt, BitVec.toNat_ofNat, Nat.zero_mod, Nat.zero_add, hC i hi])
  rw [decodeValue, show (11 : Nat) = 11 - m + m by omega, hloop, show 11 - m = (10 - m) + 1 by omega,
    decodeLoop_reading _ _ hst, hnone]
  simp only [hcnt, hoct]
  rw [consumeMany_succ, hcnt, hoct] at hlead ⊢
  rcases readingOctet_cases f (octetAt s m) (consumeMany m (startDecode seed s)) with
    ⟨hc, _⟩ | ⟨_, hl, e⟩ | ⟨_, hl, e⟩
  · rw [hlast] at hc; cases hc
  · rw [hten, hlead, octetAt_startDecode] at hl
    rw [e, decodeLoop_terminal _ _ (by simp), if_neg hl]
  · rw [hten, hlead, octetAt_startDecode] at hl
    rw [e, decodeLoop_terminal _ _ (by simp), if_pos hl]

/-- THE DECODER WITH NO TERMINATING OCTET (R62, R69): after ten octets with `C` = 1 it fails with `Overlong`, at the end
of a shorter buffer with `TruncatedInput`. -/
theorem decodeValue_unterminated {f : Form} {seed : Word} {s : State} {j : Nat} (hj : j = min 10 s.len)
    (hC : ∀ k < j, octetC (octetAt s k) = true) :
    decodeValue f seed s = .next (failDecode (if j = 10 then .overlong else .truncatedInput)
      (consumeMany j (startDecode seed s))) := by
  have hmem := (consumeMany_keeps j (startDecode seed s))
  have hcnt : (consumeMany j (startDecode seed s)).cnt.toNat = j := by
    rw [consumeMany_cnt (by simp; omega)]; simp
  have hst : (consumeMany j (startDecode seed s)).st = .reading := consumeMany_st _ _
  have hloop := decodeLoop_consume f j (11 - j) (s := startDecode seed s) rfl (by simp; omega) (by simp; omega)
    (fun i hi => by rw [octetAt_startDecode, startDecode_cnt, BitVec.toNat_ofNat, Nat.zero_mod, Nat.zero_add, hC i hi])
  have hten : (consumeMany j (startDecode seed s)).cnt = 10#4 ↔ j = 10 := by
    rw [← BitVec.toNat_inj, hcnt]; rfl
  have hfail : readingFailure (consumeMany j (startDecode seed s)) =
      some (if j = 10 then .overlong else .truncatedInput) := by
    rcases readingFailure_cases (consumeMany j (startDecode seed s)) with ⟨h, e⟩ | ⟨h, _, e⟩ | ⟨h, h', e⟩
    · rw [e, if_pos (hten.mp h)]
    · rw [e, if_neg (mt hten.mpr h)]
    · rw [hcnt, hmem.len, startDecode_len] at h'
      exact absurd (hten.mpr (by omega)) h
  rw [decodeValue, show (11 : Nat) = 11 - j + j by omega, hloop, show 11 - j = (10 - j) + 1 by omega,
    decodeLoop_reading _ _ hst, hfail]
  exact decodeLoop_terminal _ _ (by simp)

/-- Every buffer begins with a sequence of some length, or has no terminating octet among its first ten (R47, R49). -/
theorem hasLength_or_unterminated (s : State) :
    (∃ n, hasLength s n) ∨ ∀ k < min 10 s.len, octetC (octetAt s k) = true := by
  by_cases h : ∃ k, k < min 10 s.len ∧ octetC (octetAt s k) = false
  · obtain ⟨hk, hC⟩ := Nat.find_spec h
    refine .inl ⟨Nat.find h + 1, by omega, by omega, by omega, fun k hlt => ?_, by simpa using hC⟩
    have hmin := Nat.find_min h (show k < Nat.find h by omega)
    by_contra hne
    exact hmin ⟨by omega, Bool.eq_false_iff.mpr hne⟩
  · refine .inr fun k hk => ?_
    by_contra hne
    exact h ⟨k, hk, Bool.eq_false_iff.mpr hne⟩

/-- The length is one number (R49). -/
theorem hasLength_unique {s : State} {n m : Nat} (hn : hasLength s n) (hm : hasLength s m) : n = m := by
  obtain ⟨n1, _, _, nC, nL⟩ := hn
  obtain ⟨m1, _, _, mC, mL⟩ := hm
  rcases Nat.lt_trichotomy n m with h | h | h
  · rw [mC (n - 1) (by omega)] at nL; cases nL
  · exact h
  · rw [nC (m - 1) (by omega)] at mL; cases mL

/-- What the loop does from any state with enough transitions left (R29, R62, R66): it ends in a terminal state after at
most ten octets, and leaves the input ports, the buffer and the encoder alone. -/
theorem decodeLoop_next (f : Form) (k : Nat) (s : State) (hcnt : s.cnt.toNat ≤ 10) (hk : 11 ≤ s.cnt.toNat + k) :
    ∃ t, decodeLoop k f s = .next t ∧ DecodeKeeps s t ∧ t.st ≠ .reading ∧ t.cnt.toNat ≤ 10 ∧
      (s.st = .reading ∨ s.count.toNat ≤ 10 → t.count.toNat ≤ 10) := by
  induction k generalizing s with
  | zero => omega
  | succ k ih =>
    by_cases hst : s.st = .reading
    · rw [decodeLoop_reading k f hst]
      rcases readingFailure_cases s with ⟨_, e⟩ | ⟨_, _, e⟩ | ⟨hne, _, e⟩ <;> simp only [e]
      · rw [decodeLoop_terminal _ _ (by simp)]
        exact ⟨_, rfl, failDecode_keeps _ _, by simp, hcnt, by simp⟩
      · rw [decodeLoop_terminal _ _ (by simp)]
        exact ⟨_, rfl, failDecode_keeps _ _, by simp, hcnt, by simp⟩
      · have hne10 : s.cnt.toNat ≠ 10 := fun h => hne (BitVec.eq_of_toNat_eq h)
        have hcon : (consumeOctet (octetAt s s.cnt.toNat) s).cnt.toNat = s.cnt.toNat + 1 := by
          simp only [consumeOctet_cnt, BitVec.toNat_add, BitVec.toNat_ofNat]; omega
        have hkeep := readingOctet_keeps f (octetAt s s.cnt.toNat) s
        rcases readingOctet_cases f (octetAt s s.cnt.toNat) s with ⟨_, e⟩ | ⟨_, _, e⟩ | ⟨_, _, e⟩ <;>
          rw [e] at hkeep ⊢
        · obtain ⟨t, ht, hk', h₁, h₂, h₃⟩ := ih (consumeOctet (octetAt s s.cnt.toNat) s) (by omega) (by omega)
          exact ⟨t, ht, hkeep.trans hk', h₁, h₂, fun _ => h₃ (.inl hst)⟩
        · rw [decodeLoop_terminal _ _ (by simp)]
          exact ⟨_, rfl, hkeep, by simp, by rw [completeDecode_cnt]; omega,
            fun _ => by rw [completeDecode_count]; omega⟩
        · rw [decodeLoop_terminal _ _ (by simp)]
          exact ⟨_, rfl, hkeep, by simp, by rw [failDecode_cnt]; omega, by simp⟩
    · rw [decodeLoop_terminal _ _ hst]
      exact ⟨s, rfl, .refl s, hst, hcnt, fun h => h.resolve_left hst⟩

/-- What every `DECODE` does, whatever the buffer and the state (R29, R62, R66). -/
theorem decodeValue_next (f : Form) (seed : Word) (s : State) :
    ∃ t, decodeValue f seed s = .next t ∧ DecodeKeeps s t ∧ t.st ≠ .reading ∧ t.cnt.toNat ≤ 10 ∧ t.count.toNat ≤ 10 := by
  obtain ⟨t, ht, hk, h₁, h₂, h₃⟩ := decodeLoop_next f 11 (startDecode seed s) (by simp) (by simp)
  exact ⟨t, ht, (startDecode_keeps seed s).trans hk, h₁, h₂, h₃ (.inl rfl)⟩

/-- `DECODE` on a buffer that is not empty, its first octet taken out (R62). -/
theorem decodeValue_first (f : Form) (seed : Word) {s : State} (h : s.len ≠ 0) :
    decodeValue f seed s = decodeLoop 10 f (readingOctet f (octetAt s 0) (startDecode seed s)) := by
  have hnone : readingFailure (startDecode seed s) = none :=
    readingFailure_none.mpr ⟨by simp, by simpa using Nat.pos_of_ne_zero h⟩
  rw [decodeValue, decodeLoop_reading 10 f rfl, hnone]
  rfl

/-- What a decode from a given first octet does, whatever the state (R4, R62). -/
theorem decodeFirst_next (f : Form) (o : Octet) (s : State) :
    ∃ t, decodeFirst f o s = .next t ∧ DecodeKeeps s t ∧ t.st ≠ .reading := by
  unfold decodeFirst
  split
  · exact ⟨_, rfl, failDecode_keeps _ _, by simp⟩
  · have hkeep := (startDecode_keeps (seedOf f (signIndicator o)) s).trans (readingOctet_keeps f o _)
    have hcnt : (readingOctet f o (startDecode (seedOf f (signIndicator o)) s)).cnt = 1#4 := by
      rcases readingOctet_cases f o (startDecode (seedOf f (signIndicator o)) s) with ⟨_, e⟩ | ⟨_, _, e⟩ | ⟨_, _, e⟩ <;>
        rw [e] <;> rfl
    obtain ⟨t, ht, hk, h₁, _⟩ := decodeLoop_next f 10 _ (by rw [hcnt]; decide) (by rw [hcnt]; decide)
    exact ⟨t, ht, hkeep.trans hk, h₁⟩

/-- A first octet is consumed into the same state whatever `LEAD` held, since `LEAD` takes it (R15, D18). -/
theorem readingOctet_start_lead (f : Form) (o lead : Octet) (seed : Word) (s : State) :
    readingOctet f o (startDecode seed { s with lead := lead }) = readingOctet f o (startDecode seed s) := rfl

/-- The signed decode of a buffer that is not empty is `DECODE` with the seed of its first octet, which `LEAD` holds
(R65). -/
theorem decodeSigned_nonempty {s : State} (h : s.len ≠ 0) :
    decodeSigned s = decodeValue .signed (signedSeed (signIndicator (octetAt s 0))) { s with lead := octetAt s 0 } := by
  rw [decodeSigned, if_neg h, memRead_inside (by omega)]

theorem decodeSigned_empty {s : State} (h : s.len = 0) : decodeSigned s = .next (failDecode .truncatedInput s) := by
  rw [decodeSigned, if_pos h]

/-- What every decode procedure does, whatever the buffer and the state (R29, R66). -/
theorem decodeWhole_next (f : Form) (s : State) :
    ∃ t, decodeWhole f s = .next t ∧ DecodeKeeps s t ∧ t.st ≠ .reading ∧ t.count.toNat ≤ 10 := by
  cases f with
  | unsigned =>
    obtain ⟨t, ht, hk, hst, -, hcount⟩ := decodeValue_next .unsigned 0 s
    exact ⟨t, ht, hk, hst, hcount⟩
  | signed =>
    by_cases h : s.len = 0
    · exact ⟨_, decodeSigned_empty h, failDecode_keeps _ _, by simp, by simp⟩
    · obtain ⟨t, ht, hk, hst, -, hcount⟩ := decodeValue_next .signed (signedSeed (signIndicator (octetAt s 0)))
        { s with lead := octetAt s 0 }
      exact ⟨t, (decodeSigned_nonempty h).trans ht, ⟨hk.op, hk.valIn, hk.len, hk.mem, hk.n, hk.w, hk.idx, hk.encOct⟩,
        hst, hcount⟩

end Sys2Proof.Machine
end

