-- ==== Sys2Proof/Laws/Size.lean ====
section
/-! SUPPORT. The laws of the size computation (rules R54 to R56): the search for the highest set bit and the bounds of
the octet count. -/

namespace Sys2Proof.Machine

theorem findMsbFrom_le (i : Nat) (x : Word) : findMsbFrom i x ≤ i := by
  induction i with
  | zero => simp [findMsbFrom]
  | succ i ih =>
    simp only [findMsbFrom]
    split <;> omega

/-- The search answers a set bit, unless it answers 0. -/
theorem findMsbFrom_set (i : Nat) (x : Word) : findMsbFrom i x = 0 ∨ x.getLsbD (findMsbFrom i x) = true := by
  induction i with
  | zero => exact .inl rfl
  | succ i ih =>
    simp only [findMsbFrom]
    split
    · exact .inr ‹_›
    · exact ih

/-- No bit the search passed over is set. -/
theorem findMsbFrom_above (i : Nat) (x : Word) {j : Nat} (h₁ : findMsbFrom i x < j) (h₂ : j ≤ i) :
    x.getLsbD j = false := by
  induction i with
  | zero => simp only [findMsbFrom] at h₁; omega
  | succ i ih =>
    simp only [findMsbFrom] at h₁
    split at h₁
    · omega
    · next hbit =>
      rcases Nat.lt_or_ge j (i + 1) with hj | hj
      · exact ih h₁ (by omega)
      · rw [show j = i + 1 by omega]; exact Bool.eq_false_iff.mpr hbit

theorem size_pos (f : Form) (v : Word) : 1 ≤ size f v := by
  cases f <;> simp [size, usize, ssize]

theorem size_le (f : Form) (v : Word) : size f v ≤ 10 := by
  have h₁ := findMsbFrom_le 63 v
  have h₂ := findMsbFrom_le 63 (signMagnitude v)
  cases f <;> simp only [size, usize, ssize, findMsb] <;> omega

@[simp] theorem size_mod (f : Form) (v : Word) : size f v % 16 = size f v :=
  Nat.mod_eq_of_lt (by have := size_le f v; omega)

/-- The octet count fits the 4-bit register `N`. -/
theorem size_toNat (f : Form) (v : Word) : (BitVec.ofNat 4 (size f v)).toNat = size f v := by
  rw [BitVec.toNat_ofNat]; exact size_mod f v

end Sys2Proof.Machine
end

