-- ==== Sys2Proof/Laws/Encoder.lean ====
section
/-! SUPPORT. What the encoder's loop and an encode can do (rules R57 and R58), said once. -/

namespace Sys2Proof.Machine

/-- What an encode leaves alone: the input ports, `N`, and every register of the decoder (R13, R14). -/
structure EncodeKeeps (s t : State) : Prop where
  op : t.op = s.op
  valIn : t.valIn = s.valIn
  len : t.len = s.len
  acc : t.acc = s.acc
  cnt : t.cnt = s.cnt
  st : t.st = s.st
  decOct : t.decOct = s.decOct
  lead : t.lead = s.lead

/-- What the loop leaves alone besides: `N` and the outputs. -/
structure LoopKeeps (s t : State) : Prop extends EncodeKeeps s t where
  n : t.n = s.n
  count : t.count = s.count
  valOut : t.valOut = s.valOut
  cause : t.cause = s.cause
  draws : t.draws = s.draws

/-- One pass inside the buffer (R57). -/
theorem encodePass_next {f : Form} {s : State} (h : s.idx.toNat - 1 < s.len) :
    encodePass f s = .next
      { s with
        encOct := assembledOctet s
        w := shiftGroup f s.w
        idx := s.idx - 1#4
        mem := Memory.write s.mem (s.idx.toNat - 1) (assembledOctet s) } := by
  simp only [encodePass, memWrite, if_pos h]

/-- The octet the loop stores at offset `a` when it starts with `k` passes to make, the value `w` and the last octet
at offset `N`-1 (R57, R59, R60): the group after `k-1-a` shifts. -/
def loopOctet (f : Form) (w : Word) (n : Count) (k a : Nat) : Octet :=
  octetOf (decide (a + 1 ≠ n.toNat)) (lowGroup ((shiftGroup f)^[k - 1 - a] w))

/-- THE LOOP OF R57: it answers a next state, has stored each of the octets below `k` once, has shifted `W` `k` times and
has counted `IDX` down to 0. -/
theorem encodeLoop_next (f : Form) (k : Nat) (s : State) (hk : s.idx.toNat = k) (hlen : k ≤ s.len) :
    ∃ t, encodeLoop k f s = .next t ∧ LoopKeeps s t ∧ t.idx = 0#4 ∧ t.w = (shiftGroup f)^[k] s.w ∧
      (∀ a, octetAt t a = if a < k then loopOctet f s.w s.n k a else octetAt s a) ∧
      (Memory.wf s.mem → Memory.wf t.mem) ∧ (insideBuffer s → insideBuffer t) := by
  induction k generalizing s with
  | zero =>
    refine ⟨s, rfl, ⟨⟨rfl, rfl, rfl, rfl, rfl, rfl, rfl, rfl⟩, rfl, rfl, rfl, rfl, rfl⟩, ?_, rfl, ?_, id, id⟩
    · exact BitVec.eq_of_toNat_eq (by simpa using hk)
    · simp
  | succ k ih =>
    have hlt := s.idx.isLt
    have hin : s.idx.toNat - 1 < s.len := by omega
    simp only [encodeLoop, encodePass_next hin, andThen_next]
    obtain ⟨t, ht, hkeep, hidx, hw, hoct, hwf, hins⟩ :=
      ih { s with
            encOct := assembledOctet s
            w := shiftGroup f s.w
            idx := s.idx - 1#4
            mem := Memory.write s.mem (s.idx.toNat - 1) (assembledOctet s) }
        (by simp only [BitVec.toNat_sub, BitVec.toNat_ofNat]; omega) (by simp only; omega)
    refine ⟨t, ht, ⟨⟨hkeep.op, hkeep.valIn, hkeep.len, hkeep.acc, hkeep.cnt, hkeep.st, hkeep.decOct, hkeep.lead⟩,
      hkeep.n, hkeep.count, hkeep.valOut, hkeep.cause, hkeep.draws⟩, hidx, hw, fun a => ?_, fun h => ?_, fun h => ?_⟩
    · rw [hoct a]
      simp only [octetAt, Memory.read_write, show s.idx.toNat - 1 = k by omega]
      rcases Nat.lt_trichotomy a k with ha | rfl | ha
      · rw [if_pos ha, if_pos (by omega)]
        simp only [loopOctet, show k + 1 - 1 - a = (k - 1 - a) + 1 by omega, Function.iterate_succ_apply]
      · rw [if_neg (by omega), if_pos rfl, if_pos (by omega)]
        simp only [loopOctet, assembledOctet, Nat.add_sub_cancel, Nat.sub_self, Function.iterate_zero, id]
        congr 1
        rw [Bool.eq_iff_iff, bne_iff_ne, decide_eq_true_iff, ne_eq, ne_eq, not_iff_not, ← BitVec.toNat_inj, hk]
      · rw [if_neg (by omega), if_neg (by omega), if_neg (by omega)]
    · exact hwf (Memory.write_wf h _ _)
    · refine hins fun c hc => ?_
      rcases Memory.mem_write_offset hc with hc | hc
      · rw [hc]; exact hin
      · exact h c hc

/-- A FAILED ENCODE (R57, R70): the size check fires before any write. -/
theorem encodeValue_failed {f : Form} {s : State} (h : s.len < size f s.valIn) :
    encodeValue f s = .next (raise .insufficientBuffer { s with n := BitVec.ofNat 4 (size f s.valIn) }) := by
  simp only [encodeValue, if_pos h]

/-- A SUCCESSFUL ENCODE (R57): its next state, every register and every octet of the buffer. -/
theorem encodeValue_next {f : Form} {s : State} (h : size f s.valIn ≤ s.len) :
    ∃ t, encodeValue f s = .next t ∧ EncodeKeeps s t ∧
      t.n = BitVec.ofNat 4 (size f s.valIn) ∧ t.count = BitVec.ofNat 4 (size f s.valIn) ∧ t.cause = .noFailure ∧
      t.idx = 0#4 ∧ t.w = (shiftGroup f)^[size f s.valIn] s.valIn ∧
      (∀ a, octetAt t a = if a < size f s.valIn then
        loopOctet f s.valIn (BitVec.ofNat 4 (size f s.valIn)) (size f s.valIn) a else octetAt s a) ∧
      (Memory.wf s.mem → Memory.wf t.mem) ∧ (insideBuffer s → insideBuffer t) := by
  obtain ⟨t, ht, hkeep, hidx, hw, hoct, hwf, hins⟩ :=
    encodeLoop_next f (size f s.valIn) (startEncode f s) (size_toNat f _) h
  refine ⟨returnEncode t, ?_, ⟨hkeep.op, hkeep.valIn, hkeep.len, hkeep.acc, hkeep.cnt, hkeep.st, hkeep.decOct,
    hkeep.lead⟩, hkeep.n, hkeep.n, rfl, hidx, hw, hoct, hwf, hins⟩
  simp only [encodeValue, if_neg (Nat.not_lt.mpr h), ht, andThen_next]

end Sys2Proof.Machine
end

