-- ==== Sys2Proof/Laws/PerInstr.lean ====
section
/-! SUPPORT. Every row's encoding has the bits spec/opcode_table.json fixes for it (rules R39 and R50), one lemma per
constructor. -/

namespace Sys2Proof.Laws.TableRow

/-- The byte of a row, masked with the row's mask, is the row's match, and it fits the row's width. -/
def Statement (i : Instr) : Prop := encode i &&& rowMask i = rowMatch i ∧ (encode i).toNat < 2 ^ rowWidth i

theorem encu : Statement .encu := by unfold Statement; decide

theorem decu : Statement .decu := by unfold Statement; decide

theorem encs : Statement .encs := by unfold Statement; decide

theorem decs : Statement .decs := by unfold Statement; decide

theorem octetCont (d : Group) : Statement (.octetCont d) := by
  refine ⟨?_, (encode (.octetCont d)).isLt⟩
  revert d; decide

theorem octetLast (d : Group) : Statement (.octetLast d) := by
  refine ⟨?_, (encode (.octetLast d)).isLt⟩
  revert d; decide

end Sys2Proof.Laws.TableRow
end

