-- ==== Sys2Proof/Laws/Value.lean ====
section
/-! SUPPORT. The value of a sequence (rules R41 and R42) digit by digit, and what the accumulator holds of it (rule
R63). -/

namespace Sys2Proof.Machine

@[simp] theorem unsignedValue_zero (s : State) : unsignedValue s 0 = 0 := rfl

/-- One more octet: the value so far times 128, and its digit. -/
theorem unsignedValue_succ (s : State) (n : Nat) :
    unsignedValue s (n + 1) = unsignedValue s n * 128 + digitAt s n := by
  simp only [unsignedValue, Finset.sum_range_succ, Nat.add_sub_cancel, Nat.sub_self, Nat.mul_zero, pow_zero,
    Nat.mul_one, Finset.sum_mul]
  congr 1
  refine Finset.sum_congr rfl fun k hk => ?_
  have hk := Finset.mem_range.mp hk
  rw [Nat.mul_assoc, show (128 : Nat) = 2 ^ 7 by norm_num, ← pow_add,
    show 7 * (n - 1 - k) + 7 = 7 * (n - k) by omega]

/-- The digits of `n` octets are `7n` bits (R43). -/
theorem unsignedValue_lt (s : State) (n : Nat) : unsignedValue s n < 2 ^ (7 * n) := by
  induction n with
  | zero => simp
  | succ n ih =>
    have := digitAt_lt s n
    rw [unsignedValue_succ, show 7 * (n + 1) = 7 * n + 7 by ring, pow_add]
    omega

/-- The value depends on the octets alone. -/
theorem unsignedValue_congr {s t : State} {n : Nat} (h : ∀ k < n, octetAt t k = octetAt s k) :
    unsignedValue t n = unsignedValue s n := by
  refine Finset.sum_congr rfl fun k hk => ?_
  rw [digitAt, digitAt, h k (Finset.mem_range.mp hk)]

/-- `ACC` after `k` octets from the seed (R63): (seed · 2^(7k) + the value so far) mod 2^64. -/
theorem consumeMany_acc_toNat (seed : Word) (s : State) {k : Nat} (h : k ≤ 10) :
    (consumeMany k (startDecode seed s)).acc.toNat = (seed.toNat * 2 ^ (7 * k) + unsignedValue s k) % 2 ^ 64 := by
  induction k with
  | zero => simp [consumeMany, Nat.mod_eq_of_lt seed.isLt]
  | succ k ih =>
    have hd := digitAt_lt s k
    rw [consumeMany_acc rfl (by omega), accumulate_toNat, ih (by omega), unsignedValue_succ,
      show 7 * (k + 1) = 7 * k + 7 by ring, pow_add, octetAt_startDecode]
    change _ + digitAt s k = _
    rw [show seed.toNat * (2 ^ (7 * k) * 2 ^ 7) = seed.toNat * 2 ^ (7 * k) * 128 by ring]
    omega

end Sys2Proof.Machine
end

