-- ==== Sys2Proof/Laws/Step.lean ====
section
/-! SUPPORT. `exec` and the states a row is placed in, by the shared operations they stand for. -/

namespace Sys2Proof.Machine

/-- A procedure that answers a next state ends the operation with that state released (R31). -/
@[simp] theorem endOperation_next (s : State) : endOperation (.next s) = .next (release s) := rfl

/-- An operation that ends leaves a state released from the one its procedure answers. -/
theorem endOperation_eq_next {r : Result} {t : State} (h : endOperation r = .next t) :
    ∃ u, r = .next u ∧ t = release u := by
  cases r with
  | next u => cases h; exact ⟨u, rfl, rfl⟩
  | fault f => cases h
  | refused f => cases h

theorem released_release (s : State) : released (release s) := rfl

/-- What a released state says of its working registers. -/
theorem released_fields {s : State} (h : released s) :
    s.n = 0 ∧ s.w = 0 ∧ s.idx = 0 ∧ s.encOct = 0 ∧ s.acc = 0 ∧ s.cnt = 0 ∧ s.st = .done ∧ s.decOct = 0 ∧ s.lead = 0 := by
  rw [← h]; exact ⟨rfl, rfl, rfl, rfl, rfl, rfl, rfl, rfl, rfl⟩

theorem exec_encodeInstr (f : Form) (s : State) : exec (encodeInstr f) s = endOperation (encodeValue f s) := by
  cases f <;> rfl

theorem exec_decodeInstr (f : Form) (s : State) : exec (decodeInstr f) s = endOperation (decodeWhole f s) := by
  cases f <;> rfl

@[simp] theorem exec_encu (s : State) : exec .encu s = endOperation (encodeValue .unsigned s) := rfl

@[simp] theorem exec_encs (s : State) : exec .encs s = endOperation (encodeValue .signed s) := rfl

@[simp] theorem exec_decu (s : State) : exec .decu s = endOperation (decodeValue .unsigned 0 s) := rfl

@[simp] theorem exec_decs (s : State) : exec .decs s = endOperation (decodeSigned s) := rfl

/-- An octet of either format is the first octet of a decode, in the form on `OP` (R39, R62). -/
@[simp] theorem exec_decodeOctet (o : Octet) (s : State) :
    exec (decodeOctet o) s = endOperation (decodeFirst (formOf s.op) o s) := by
  unfold decodeOctet
  split
  · next h =>
    conv_rhs => rw [← octetOf_fields o, h]
    rfl
  · next h =>
    rw [Bool.not_eq_true] at h
    conv_rhs => rw [← octetOf_fields o, h]
    rfl

/-- A byte that is the encoding of an octet row decodes to it. -/
theorem decodeOctet_encode {i : Instr} (h : spaceOf i = .wire) : decodeOctet (encode i) = i := by
  cases i <;> simp_all [spaceOf, encode]

/-- The code of an operation selects it (R50). -/
theorem decodeOp_selectCode {i : Instr} (h : spaceOf i = .select) : decodeOp (selectCode i) = i := by
  cases i <;> first | rfl | cases h

end Sys2Proof.Machine
end

