-- ==== Sys2Proof/Tests/Slice0.lean ====
section
/-! SUPPORT. Small tests, each one step, with results taken from spec/95_test_vectors.md or written out from the
encodings; the smoke tests of well-formedness; and for each statement with hypotheses a state that meets them. -/

namespace Sys2Proof.Tests

open Sys2Proof.Machine

/-- An operation presented to the block after reset. -/
def ready (op : BitVec 2) (v : Word) (buf : List Octet) : State := present op v buf State.reset

/-- The result is a next state with a property. -/
def answers (r : Result) (p : State → Bool) : Bool :=
  match r with
  | .next t => p t
  | .fault _ => false
  | .refused _ => false

/-- The first octets of the buffer. -/
def octets (n : Nat) (s : State) : List Octet := (List.range n).map (octetAt s)

/-- A decode under way at offset 0 of a buffer. -/
def underWay (op : BitVec 2) (buf : List Octet) : State := startDecode 0 (ready op 0 buf)

/-! ### Well-formedness: a sequence each check refuses -/

theorem test_seq_well_formed : wellFormedSeq [.octetCont 1, .octetLast 0] = true := by decide

theorem test_seq_empty_refused : wellFormedSeq [] = false := by decide

theorem test_seq_eleven_refused :
    wellFormedSeq (List.replicate 10 (.octetCont 1) ++ [.octetLast 0]) = false := by decide

theorem test_seq_not_terminated_refused : wellFormedSeq [.octetCont 1] = false := by decide

theorem test_seq_early_last_refused : wellFormedSeq [.octetLast 1, .octetLast 0] = false := by decide

theorem test_seq_operation_refused : wellFormedSeq [.encu] = false := by decide

/-! ### Decoding: words written out bit by bit from R39 and R50 -/

theorem test_decode_encu : decodeTableWord 8 0b00 = some .encu := by decide

theorem test_decode_decu : decodeTableWord 8 0b01 = some .decu := by decide

theorem test_decode_encs : decodeTableWord 8 0b10 = some .encs := by decide

theorem test_decode_decs : decodeTableWord 8 0b11 = some .decs := by decide

theorem test_decode_octet_cont : decodeTableWord 8 0b11111101 = some (.octetCont 0b1111101) := by decide

theorem test_decode_octet_last : decodeTableWord 8 0b01010100 = some (.octetLast 0b1010100) := by decide

theorem test_decode_wire_zero : decodeBytes .wire [0b00000000] = .ok (.octetLast 0, []) := by decide

theorem test_decode_narrow_op : decodeTableWord 2 0b10 = some .encs := by decide

theorem test_decode_no_row : decodeTableWord 8 256 = none ∧ decodeTableWord 2 4 = none := by decide

/-! ### One step of each row -/

/-- V-ENCU-13 and P1 step 1: 0x12345678 in a buffer of 8 octets 0x55. -/
theorem test_encu_p1 :
    answers (step (ready 0b00 0x12345678 (List.replicate 8 0x55)))
      (fun t => t.count == 5 && octets 8 t == [0x81, 0x91, 0xd1, 0xac, 0x78, 0x55, 0x55, 0x55]) = true := by decide

/-- V-FAIL-E4: 2^63 does not fit nine octets; the buffer is untouched. -/
theorem test_encu_insufficient :
    answers (step (ready 0b00 0x8000000000000000 (List.replicate 9 0x55)))
      (fun t => t.count == 0 && causeCode t.cause == 1 && octets 9 t == List.replicate 9 0x55) = true := by decide

/-- V-DEC-13 (the source's S3): 2^64 − 1 in ten octets. -/
theorem test_decu_max :
    answers (step (ready 0b01 0 ([0x81] ++ List.replicate 8 0xff ++ [0x7f])))
      (fun t => t.count == 10 && t.valOut == 0xffffffffffffffff) = true := by decide

/-- V-FAIL-D4: ten octets with `C` = 1 are `Overlong`. -/
theorem test_decu_overlong :
    answers (step (ready 0b01 0 (List.replicate 10 0xff)))
      (fun t => t.count == 0 && causeCode t.cause == 3) = true := by decide

/-- V-ENCS-24 (the source's S6): the minimum of `i64`. -/
theorem test_encs_min :
    answers (step (ready 0b10 0x8000000000000000 (List.replicate 10 0x55)))
      (fun t => t.count == 10 && octets 10 t == [0xff, 0x80, 0x80, 0x80, 0x80, 0x80, 0x80, 0x80, 0x80, 0x00]) = true := by
  decide

/-- V-ENCS-8: −65 needs two octets. -/
theorem test_encs_minus_65 :
    answers (step (ready 0b10 0xffffffffffffffbf [0x55, 0x55, 0x55]))
      (fun t => t.count == 2 && octets 3 t == [0xff, 0x3f, 0x55]) = true := by decide

/-- V-DEC-12: −300. -/
theorem test_decs_minus_300 :
    answers (step (ready 0b11 0 [0xfd, 0x54])) (fun t => t.count == 2 && t.valOut == 0xfffffffffffffed4) = true := by
  decide

/-- V-DEC-13 under `DECS`: 0x81 is no legal signed lead. -/
theorem test_decs_wrong_lead :
    answers (step (ready 0b11 0 ([0x81] ++ List.replicate 8 0xff ++ [0x7f])))
      (fun t => t.count == 0 && causeCode t.cause == 4) = true := by decide

/-- V-ENCU-13 decoded: 0x81 is the first of five octets. -/
theorem test_octet_cont_begins :
    answers (exec (.octetCont 0x01) (ready 0b01 0 [0x81, 0x91, 0xd1, 0xac, 0x78]))
      (fun t => t.count == 5 && t.valOut == 0x12345678) = true := by decide

/-- V-DEC-3 under `DECS`: 0x40 is −64. -/
theorem test_octet_last_whole :
    answers (exec (.octetLast 0x40) (ready 0b11 0 [0x40]))
      (fun t => t.count == 1 && t.valOut == 0xffffffffffffffc0) = true := by decide

/-- R4: a decode begins anew, whatever the working registers hold. -/
theorem test_no_decode_resumes :
    answers (step { ready 0b01 0 [0x40] with st := .reading, acc := 5, cnt := 1, lead := 0x85 })
      (fun t => t.count == 1 && t.valOut == 0x40) = true := by decide

/-- R31: no copy of an octet is left after a decode, nor (R72) after one that failed. -/
theorem test_no_copy_after_decode :
    answers (step (ready 0b11 0 [0xfd, 0x54])) (fun t => t.lead == 0 && t.decOct == 0 && t.acc == 0) = true ∧
    answers (step (ready 0b11 0 [0xfd])) (fun t => t.lead == 0 && t.decOct == 0 && t.acc == 0) = true := by decide

/-- R31: no copy of an octet or of the value is left after an encode. -/
theorem test_no_copy_after_encode :
    answers (step (ready 0b10 0xffffffffffffffbf [0, 0])) (fun t => t.encOct == 0 && t.w == 0) = true := by decide

/-! ### A row placed after reset is what the next step performs -/

theorem test_placed_decs_runs :
    answers (step (State.reset.withFetchWord 8 0b11)) (fun t => t.count == 0 && causeCode t.cause == 2) = true := by
  decide

/-- As V-FAIL-D2: one octet promising another. -/
theorem test_placed_octet_cont_runs :
    answers (step (State.reset.withFetchWord 8 0b10000101))
      (fun t => t.count == 0 && causeCode t.cause == 2) = true := by decide

/-- V-DEC-2 under `DECU`. -/
theorem test_placed_octet_last_runs :
    answers (step (State.reset.withFetchWord 8 0b01111111)) (fun t => t.count == 1 && t.valOut == 127) = true := by
  decide

/-! ### Witnesses: states that meet the hypotheses of the statements -/

theorem witness_StepPerformsDecodedRow :
    (ready 0b01 0 [0x80]).op.getLsbD 0 = true ∧ (ready 0b01 0 [0x80]).len ≠ 0 := by decide

theorem witness_OctetFields : 0x80 ≤ (0x80 : Octet).toNat ∧ (0x7f : Octet).toNat ≤ 0x7f := by decide

theorem witness_EncodeOfDecode : decodeBytes .wire [0xff, 0x00] = .ok (.octetCont 0x7f, [0x00]) := by decide

theorem witness_PlacedRowRunsNext :
    decodeTableWord 8 0x03 = some .decs ∧ decodeTableWord 8 0x04 = some (.octetLast 4) ∧
    decodeTableWord 8 0xff = some (.octetCont 0x7f) := by decide

theorem witness_FindMsbIsHighestSetBit :
    (0 : Word) = 0 ∧ (1 : Word) ≠ 0 ∧ (∃ j, findMsb 1 < j ∧ j ≤ 63) := ⟨rfl, by decide, 63, by decide, by decide⟩

theorem witness_UsizeIsLeast : 1 ≤ 2 ∧ (128 : Word).toNat < 2 ^ (7 * 2) := by decide

theorem witness_SsizeIsLeast :
    1 ≤ 2 ∧ -(2 : Int) ^ (7 * 2 - 1) ≤ (64 : Word).toInt ∧ (64 : Word).toInt < (2 : Int) ^ (7 * 2 - 1) := by decide

theorem witness_EncuWritesUnsignedOctets :
    usize (ready 0b00 0x80 [0, 0]).valIn ≤ (ready 0b00 0x80 [0, 0]).len ∧
    (ready 0b00 0x80 [0]).len < usize (ready 0b00 0x80 [0]).valIn := by decide

theorem witness_EncsWritesSignedOctets :
    ssize (ready 0b10 0x40 [0, 0]).valIn ≤ (ready 0b10 0x40 [0, 0]).len ∧
    (ready 0b10 0x40 [0]).len < ssize (ready 0b10 0x40 [0]).valIn := by decide

theorem witness_EncoderEndState :
    (usize (ready 0b00 0x8000000000000000 (List.replicate 10 0)).valIn = 10 ∧
      (ready 0b00 0x8000000000000000 (List.replicate 10 0)).len = 10) ∧
    (ssize (ready 0b10 0x8000000000000000 (List.replicate 10 0)).valIn = 10 ∧
      (ready 0b10 0x8000000000000000 (List.replicate 10 0)).len = 10) := by decide

theorem witness_EncodeFrame :
    (∃ t, exec (encodeInstr .unsigned) (ready 0b00 0x80 [0, 0, 0x55]) = .next t) ∧
    ¬(2 < size .unsigned 0x80 ∧ size .unsigned 0x80 ≤ 3) ∧
    (ready 0b00 0x80 [0x55]).len < size .unsigned (ready 0b00 0x80 [0x55]).valIn := ⟨⟨_, rfl⟩, by decide, by decide⟩

theorem witness_EncodersWriteSequences :
    size .signed (ready 0b10 0x40 [0, 0]).valIn ≤ (ready 0b10 0x40 [0, 0]).len := by decide

theorem witness_UnsignedLengths :
    (usize (ready 0b00 0x7f [0]).valIn = 1 ∧ (ready 0b00 0x7f [0]).len = 1) ∧
    (usize (ready 0b00 0x80 [0, 0]).valIn = 2 ∧ (ready 0b00 0x80 [0, 0]).len = 2) ∧
    (usize (ready 0b00 0xffffffffffffffff (List.replicate 10 0)).valIn = 10 ∧
      (ready 0b00 0xffffffffffffffff (List.replicate 10 0)).len = 10) := by decide

theorem witness_SignedLengths :
    (ssize (ready 0b10 0x3f [0]).valIn = 1 ∧ (ready 0b10 0x3f [0]).len = 1) ∧
    (ssize (ready 0b10 0x40 [0, 0]).valIn = 2 ∧ (ready 0b10 0x40 [0, 0]).len = 2) := by decide

theorem witness_EncodersAgreeWhenSizesAgree :
    0 ≤ (ready 0b00 300 [0, 0]).valIn.toInt ∧ usize (ready 0b00 300 [0, 0]).valIn = ssize (ready 0b00 300 [0, 0]).valIn := by
  decide

theorem witness_DecuReadsUnsignedValue :
    hasLength (ready 0b01 0 [0x00]) 1 ∧
    (hasLength (ready 0b01 0 ([0x81] ++ List.replicate 8 0xff ++ [0x7f])) 10 ∧
      octetAt (ready 0b01 0 ([0x81] ++ List.replicate 8 0xff ++ [0x7f])) 0 = 0x81#8) ∧
    (hasLength (ready 0b01 0 ([0x80] ++ List.replicate 8 0xff ++ [0x7f])) 10 ∧
      octetAt (ready 0b01 0 ([0x80] ++ List.replicate 8 0xff ++ [0x7f])) 0 ≠ 0x81#8) ∧
    truncatedInput (ready 0b01 0 []) ∧ truncatedInput (ready 0b01 0 (List.replicate 9 0xff)) ∧
    overlongInput (ready 0b01 0 (List.replicate 10 0xff)) := by decide

theorem witness_DecsReadsSignedValue :
    hasLength (ready 0b11 0 [0x7f]) 1 ∧
    (hasLength (ready 0b11 0 ([0xff] ++ List.replicate 8 0x80 ++ [0x00])) 10 ∧
      octetAt (ready 0b11 0 ([0xff] ++ List.replicate 8 0x80 ++ [0x00])) 0 = 0xff#8) ∧
    (hasLength (ready 0b11 0 ([0x81] ++ List.replicate 8 0xff ++ [0x7f])) 10 ∧
      ¬(octetAt (ready 0b11 0 ([0x81] ++ List.replicate 8 0xff ++ [0x7f])) 0 = 0x80#8 ∨
        octetAt (ready 0b11 0 ([0x81] ++ List.replicate 8 0xff ++ [0x7f])) 0 = 0xff#8)) ∧
    truncatedInput (ready 0b11 0 []) ∧ overlongInput (ready 0b11 0 (List.replicate 10 0x80)) := by decide

theorem witness_ShortSequencesAreAccepted :
    hasLength (ready 0b01 0 [0x80, 0x00]) 2 ∧ hasLength (ready 0b01 0 (List.replicate 8 0x80 ++ [0x00])) 9 ∧
    hasLength (ready 0b11 0 (List.replicate 9 0x80 ++ [0x00])) 10 := by decide

theorem witness_DecodersDifferBySignIndicator :
    hasLength (ready 0b01 0 [0x7f]) 1 ∧ hasLength (ready 0b01 0 ([0x81] ++ List.replicate 8 0xff ++ [0x7f])) 10 := by
  decide

theorem witness_DecodeFrame : ∃ t, exec (decodeInstr .signed) (ready 0b11 0 [0x7f]) = .next t := ⟨_, rfl⟩

theorem witness_DecodeReadsOnlyItsOctets :
    hasLength (ready 0b01 0 [0x81, 0x00]) 2 ∧ 2 ≤ (ready 0b01 0 [0x81, 0x00, 0xff]).len ∧
    ∀ k, k < 2 → octetAt (ready 0b01 0 [0x81, 0x00, 0xff]) k = octetAt (ready 0b01 0 [0x81, 0x00]) k := by decide

/-- A decode that has consumed nine octets, with the tenth in reach and a legal lead. -/
def ninth : State := { underWay 0b01 ([0x81] ++ List.replicate 8 0x80 ++ [0x00]) with cnt := 9, lead := 0x81 }

theorem witness_OctetIsAccumulated : ninth.cnt.toNat < 10 ∧ ninth.cnt.toNat < ninth.len := by decide

theorem witness_DecoderTransitionTable :
    (ninth.cnt.toNat ≤ 10 ∧ ninth.st = .reading ∧ ninth.cnt.toNat ≠ 10 ∧ ninth.cnt.toNat < ninth.len) ∧
    octetC (octetAt (underWay 0b01 [0x80]) (underWay 0b01 [0x80]).cnt.toNat) = true ∧
    (octetC (octetAt ninth ninth.cnt.toNat) = false ∧ ninth.cnt.toNat + 1 = 10 ∧
      legalLead .unsigned ninth.lead = true ∧ legalLead .signed ninth.lead = false) ∧
    ({ ninth with cnt := 10 }.st = .reading ∧ { ninth with cnt := 10 }.cnt.toNat = 10) ∧
    ({ ninth with len := 9 }.st = .reading ∧ { ninth with len := 9 }.len ≤ { ninth with len := 9 }.cnt.toNat) ∧
    State.reset.st = .done ∧ { State.reset with st := .failed }.st = .failed := by decide

theorem witness_OctetLastIsAWholeSequence :
    (ready 0b01 0 [0x40]).len ≠ 0 ∧ formOf (ready 0b01 0 [0x40]).op = .unsigned ∧
    formOf (ready 0b11 0 [0x40]).op = .signed := by decide

/-- A buffer with `OCTET_CONT` of a group at offset 0. -/
def beginning (d : Group) (s : State) : State := { s with mem := Memory.write s.mem 0 (octetOf true d) }

theorem witness_OctetContBeginsSequence :
    (ready 0b01 0 [0x55, 0x00]).len ≠ 0 ∧ hasLength (beginning 1 (ready 0b01 0 [0x55, 0x00])) 2 ∧
    hasLength (beginning 1 (ready 0b01 0 (List.replicate 9 0x80 ++ [0x00]))) 10 ∧
    legalLead (formOf 0b01) (octetOf true 1) = true ∧ legalLead (formOf 0b11) (octetOf true 1) = false ∧
    truncatedInput (beginning 1 (ready 0b01 0 [0x55])) ∧
    overlongInput (beginning 1 (ready 0b01 0 (List.replicate 10 0x80))) := by decide

theorem witness_OctetRowIsItsDecode : (ready 0b01 0 [0x00]).len ≠ 0 ∧ (ready 0b11 0 []).len = 0 := by decide

theorem witness_OctetFrame :
    (∃ t, exec (decodeOctet 0x00) (ready 0b01 0 [0x55]) = .next t) ∧
    (∃ t, exec (decodeOctet 0x00) (ready 0b01 0 []) = .next t) ∧ (ready 0b01 0 []).len = 0 :=
  ⟨⟨_, rfl⟩, ⟨_, rfl⟩, rfl⟩

theorem witness_DecodeIsItsTransitions : (ready 0b11 0 [0x00]).len ≠ 0 := by decide

theorem witness_RoundTripUnsigned : usize (ready 0b00 0x80 [0, 0]).valIn ≤ (ready 0b00 0x80 [0, 0]).len := by decide

theorem witness_RoundTripSigned :
    ssize (ready 0b10 0xffffffffffffffbf [0, 0]).valIn ≤ (ready 0b10 0xffffffffffffffbf [0, 0]).len := by decide

theorem witness_ReencodingIsNeverLonger :
    (∃ t, exec (decodeInstr .unsigned) (ready 0b01 0 [0x80, 0x00]) = .next t ∧ t.count ≠ 0#4) ∧
    (∃ t, exec (decodeInstr .signed) (ready 0b11 0 [0xff, 0x7f]) = .next t ∧ t.count ≠ 0#4) :=
  ⟨⟨_, rfl, by decide⟩, _, rfl, by decide⟩

theorem witness_CanonicalEncodingIsUnique :
    (∃ t, exec (decodeInstr .unsigned) (ready 0b01 0 [0x81, 0x00]) = .next t ∧ t.count ≠ 0#4 ∧
      size .unsigned t.valOut = t.count.toNat ∧ (ready 0b00 0x80 [0, 0]).valIn = t.valOut ∧
      size .unsigned (ready 0b00 0x80 [0, 0]).valIn ≤ (ready 0b00 0x80 [0, 0]).len) ∧
    (∃ t, exec (decodeInstr .signed) (ready 0b11 0 [0xff, 0x3f]) = .next t ∧ t.count ≠ 0#4 ∧
      size .signed t.valOut = t.count.toNat ∧ (ready 0b10 0xffffffffffffffbf [0, 0]).valIn = t.valOut ∧
      size .signed (ready 0b10 0xffffffffffffffbf [0, 0]).valIn ≤ (ready 0b10 0xffffffffffffffbf [0, 0]).len) :=
  ⟨⟨_, rfl, by decide, by decide, by decide, by decide⟩, _, rfl, by decide, by decide, by decide, by decide⟩

theorem witness_OperationsAreRepeatable :
    answers (exec (decodeInstr .signed) (ready 0b11 0 [0x7f])) (fun t => t.count != 0#4) = true := by decide

theorem witness_AnswersDependOnInputsAlone :
    answers (step (present 0b01 0 [0x7f] State.reset)) (fun t => t.count != 0#4) = true := by decide

theorem witness_LenMattersUpToTen :
    isOperation .decs = true ∧ min 12 10 = min (ready 0b11 0 (List.replicate 10 0xff)).len 10 := by decide

theorem witness_StepKeepsInvariant :
    Inv (ready 0b01 0 [0x81, 0x00]) ∧ ∃ t, step (ready 0b01 0 [0x81, 0x00]) = .next t :=
  ⟨⟨by decide, by decide, rfl, by decide, by decide, by decide, by decide, by decide⟩, _, rfl⟩

theorem witness_FailureLeavesBuffer :
    isOperation .encu = true ∧
    answers (exec .encu (ready 0b00 0x80 [0x55])) (fun t => t.count == 0#4) = true := by decide

end Sys2Proof.Tests
end

section
/-! PROOFS of the family 10_state: the answer of an operation is a function of its inputs (rule R11). Both encoders and
both decoders are compared in two states through the closed forms of Laws/Encoder and Laws/Decoder. -/

namespace Sys2Proof.Machine

/-! ### The canonical form of a buffer is one list -/

theorem Memory.read_of_mem {m : Memory} {c : Host.Cell} (h : m.Pairwise fun c d => c.1 < d.1) (hc : c ∈ m) :
    Memory.read m c.1 = c.2 := by
  induction m with
  | nil => cases hc
  | cons d m ih =>
    obtain ⟨hd, hm⟩ := List.pairwise_cons.mp h
    rcases List.mem_cons.mp hc with rfl | hc
    · simp [Memory.read]
    · rw [Memory.read, if_neg (hd c hc).ne, ih hm hc]

/-- An octet read that differs from what an unlisted offset reads as is listed. -/
theorem Memory.mem_of_read {m : Memory} {a : Nat} (h : Memory.read m a ≠ Config.unlisted) :
    (a, Memory.read m a) ∈ m := by
  induction m with
  | nil => exact absurd rfl h
  | cons c m ih =>
    rw [Memory.read] at h ⊢
    split at h
    · next hc => rw [if_pos hc, ← hc]; exact List.mem_cons_self
    · next hc => rw [if_neg hc]; exact List.mem_cons_of_mem _ (ih h)

/-- The entries of a buffer in canonical form are the octets that differ from `Config.unlisted` (log 4). -/
theorem Memory.mem_iff_read {m : Memory} (h : Memory.wf m) (c : Host.Cell) :
    c ∈ m ↔ Memory.read m c.1 = c.2 ∧ c.2 ≠ Config.unlisted := by
  constructor
  · exact fun hc => ⟨Memory.read_of_mem h.1 hc, h.2 c hc⟩
  · rintro ⟨hr, hu⟩
    have hmem := Memory.mem_of_read (hr ▸ hu)
    rwa [hr] at hmem

/-- Two buffers in canonical form that read the same at every offset are the same list (log 4). -/
theorem Memory.eq_of_read_eq {m m' : Memory} (h : Memory.wf m) (h' : Memory.wf m')
    (hr : ∀ a, Memory.read m a = Memory.read m' a) : m = m' :=
  List.Pairwise.eq_of_mem_iff (r := InvImage (· < ·) Prod.fst) h.1 h'.1 fun c => by
    rw [Memory.mem_iff_read h, Memory.mem_iff_read h', hr]

/-! ### An encode depends on `VAL_IN`, `LEN` and the buffer -/

/-- Two encodes of the same value into the same buffer, in canonical form, give the same answer (R11, R57). -/
theorem encodeValue_sameAnswer (f : Form) {s u : State} (hv : s.valIn = u.valIn) (hl : s.len = u.len)
    (hm : s.mem = u.mem) (hwf : Memory.wf s.mem) :
    ∃ t w, encodeValue f s = .next t ∧ encodeValue f u = .next w ∧ sameAnswer false t w := by
  rcases Nat.lt_or_ge s.len (size f s.valIn) with hroom | hroom
  · exact ⟨_, _, encodeValue_failed hroom, encodeValue_failed (hl ▸ hv ▸ hroom), rfl, hm, nofun⟩
  · obtain ⟨t, ht, -, -, htc, -, -, -, hto, htwf, -⟩ := encodeValue_next hroom
    obtain ⟨w, hw, -, -, hwc, -, -, -, hwo, hwwf, -⟩ := encodeValue_next (f := f) (hl ▸ hv ▸ hroom)
    have hread (a : Nat) : octetAt t a = octetAt w a := by
      rw [hto, hwo, hv, octetAt_congr hm]
    exact ⟨t, w, ht, hw, by rw [htc, hwc, hv], Memory.eq_of_read_eq (htwf hwf) (hwwf (hm ▸ hwf)) hread, nofun⟩

/-! ### A decode depends on `LEN` and the buffer -/

/-- The length found by scanning depends on `LEN` and the buffer alone (R49). -/
theorem hasLength_congr {s u : State} (hl : s.len = u.len) (hm : s.mem = u.mem) {n : Nat} (h : hasLength s n) :
    hasLength u n := by
  simpa only [hasLength, octetAt, ← hl, ← hm] using h

/-- `ACC` after octets consumed from the same seed and the same buffer is the same (R63). -/
theorem consumeMany_acc_congr (seed : Word) {s u : State} (hm : s.mem = u.mem) {n : Nat} (hn : n ≤ 10) :
    (consumeMany n (startDecode seed s)).acc = (consumeMany n (startDecode seed u)).acc := by
  apply BitVec.eq_of_toNat_eq
  rw [consumeMany_acc_toNat _ _ hn, consumeMany_acc_toNat _ _ hn, unsignedValue_congr fun k _ => octetAt_congr hm k]

/-- `CNT` after at most ten octets consumed from the start of a decode is their number (R15). -/
theorem consumeMany_start_cnt (seed : Word) (s : State) {n : Nat} (hn : n ≤ 10) :
    (consumeMany n (startDecode seed s)).cnt = BitVec.ofNat 4 n := by
  apply BitVec.eq_of_toNat_eq
  rw [consumeMany_cnt (by simpa using hn)]
  simp only [startDecode_cnt, BitVec.toNat_ofNat]
  omega

/-- Two decodes from the same seed and the same buffer give the same answer (R11, R62). -/
theorem decodeValue_sameAnswer (f : Form) (seed : Word) {s u : State} (hl : s.len = u.len) (hm : s.mem = u.mem) :
    ∃ t w, decodeValue f seed s = .next t ∧ decodeValue f seed u = .next w ∧ sameAnswer true t w := by
  have hmem (n : Nat) : (consumeMany n (startDecode seed s)).mem = (consumeMany n (startDecode seed u)).mem := by
    rw [(consumeMany_keeps n _).mem, (consumeMany_keeps n _).mem, startDecode_mem, startDecode_mem, hm]
  have hoct (a : Nat) : octetAt u a = octetAt s a := octetAt_congr hm.symm a
  rcases hasLength_or_unterminated s with ⟨n, hn⟩ | hC
  · refine ⟨_, _, decodeValue_terminated hn, decodeValue_terminated (hasLength_congr hl hm hn), ?_⟩
    have h10 : n ≤ 10 := hn.2.1
    rw [hoct]
    split
    · exact ⟨rfl, hmem n, fun _ hne => absurd rfl hne⟩
    · exact ⟨(consumeMany_start_cnt seed s h10).trans (consumeMany_start_cnt seed u h10).symm, hmem n,
        fun _ _ => consumeMany_acc_congr seed hm h10⟩
  · refine ⟨_, _, decodeValue_unterminated rfl hC, decodeValue_unterminated (congrArg (min 10) hl) fun k hk => ?_,
      rfl, hmem _, fun _ hne => absurd rfl hne⟩
    rw [hoct, hC k hk]

/-- Two decodes of the same buffer give the same answer, in either form (R11, R64, R65). -/
theorem decodeWhole_sameAnswer (f : Form) {s u : State} (hl : s.len = u.len) (hm : s.mem = u.mem) :
    ∃ t w, decodeWhole f s = .next t ∧ decodeWhole f u = .next w ∧ sameAnswer true t w := by
  cases f with
  | unsigned => exact decodeValue_sameAnswer .unsigned 0 hl hm
  | signed =>
    by_cases h : s.len = 0
    · exact ⟨_, _, decodeSigned_empty h, decodeSigned_empty (hl ▸ h), rfl, hm, fun _ hne => absurd rfl hne⟩
    · simp only [decodeWhole, decodeSigned_nonempty h, decodeSigned_nonempty (hl ▸ h), octetAt_congr hm]
      exact decodeValue_sameAnswer .signed _ hl hm

/-! ### The whole operation -/

/-- `OP[0]` selects decode and `OP[1]` the form (R50). -/
theorem decodeOp_eq (op : BitVec 2) :
    decodeOp op = if op.getLsbD 0 then decodeInstr (formOf op) else encodeInstr (formOf op) := by
  revert op; decide

/-- Releasing the working registers leaves the answer as the procedure gave it (R31). -/
theorem endOperation_sameAnswer {d : Bool} {r r' : Result}
    (h : ∃ t w, r = .next t ∧ r' = .next w ∧ sameAnswer d t w) :
    ∃ t w, endOperation r = .next t ∧ endOperation r' = .next w ∧ sameAnswer d t w := by
  obtain ⟨t, w, rfl, rfl, hsame⟩ := h
  exact ⟨release t, release w, rfl, rfl, hsame⟩

/-- A step with an operation presented is that operation (R50, R81). -/
theorem step_present (op : BitVec 2) (v : Word) (buf : List Octet) (s : State) :
    step (present op v buf s) = exec (decodeOp op) (present op v buf s) := rfl

/-- Settles O39: by `OP[0]` the step is an encode or a decode, and either gives the same answer in two states with the
same value, length and buffer. -/
theorem answersDependOnInputsAlone : Obligations.AnswersDependOnInputsAlone := by
  intro op v buf s u
  rw [step_present, step_present, decodeOp_eq]
  cases op.getLsbD 0 with
  | false =>
    simp only [Bool.false_eq_true, if_false, exec_encodeInstr]
    exact endOperation_sameAnswer
      (encodeValue_sameAnswer (formOf op) rfl rfl rfl (Memory.ofOctetsFrom_wf buf 0))
  | true =>
    simp only [if_true, exec_decodeInstr]
    exact endOperation_sameAnswer (decodeWhole_sameAnswer (formOf op) rfl rfl)

end Sys2Proof.Machine
end

section
/-! PROOFS of the family 20_memory: an operation can be repeated (rule R33), and nothing of the buffer outlives one
(rules R31 and R72). -/

namespace Sys2Proof.Machine

/-! ### Repeating an operation -/

/-- A second encode finds the value and `LEN` of the first, and stores the same octets over those of the first (R33). -/
theorem encodeValue_repeat (f : Form) (s : State) :
    ∃ t u, encodeValue f s = .next t ∧ encodeValue f (release t) = .next u ∧ u.count = t.count ∧
      ∀ a, octetAt u a = octetAt t a := by
  rcases Nat.lt_or_ge s.len (size f s.valIn) with hroom | hroom
  · exact ⟨_, _, encodeValue_failed hroom, encodeValue_failed hroom, rfl, fun _ => rfl⟩
  · obtain ⟨t, ht, hkeep, -, htc, -, -, -, hto, -⟩ := encodeValue_next hroom
    have hv : (release t).valIn = s.valIn := hkeep.valIn
    have hroom' : size f (release t).valIn ≤ (release t).len := by rwa [hv, release_len, hkeep.len]
    obtain ⟨u, hu, -, -, huc, -, -, -, huo, -⟩ := encodeValue_next hroom'
    rw [hv] at huc huo
    refine ⟨t, u, ht, hu, huc.trans htc.symm, fun a => ?_⟩
    rw [huo, octetAt_release, hto]
    split <;> rfl

/-- A second decode finds `LEN` and the buffer of the first, so it gives the same answer (R11, R33); neither changes an
octet (R29). -/
theorem decodeWhole_repeat (f : Form) (s : State) :
    ∃ t u, decodeWhole f s = .next t ∧ decodeWhole f (release t) = .next u ∧ t.mem = s.mem ∧ sameAnswer true u t := by
  obtain ⟨t, ht, hkeep, -⟩ := decodeWhole_next f s
  obtain ⟨u, t', hu, ht', hsame⟩ := decodeWhole_sameAnswer f (s := release t) hkeep.len hkeep.mem
  cases ht.symm.trans ht'
  exact ⟨t, u, ht, hu, hkeep.mem, hsame⟩

/-- Settles O38: by `encodeValue_repeat` and `decodeWhole_repeat`, whose answers the end of the operation keeps. -/
theorem operationsAreRepeatable : Obligations.OperationsAreRepeatable := by
  intro f s
  simp only [exec_encodeInstr, exec_decodeInstr]
  constructor
  · obtain ⟨t, u, ht, hu, hcount, hoct⟩ := encodeValue_repeat f s
    exact ⟨release t, release u, by rw [ht, endOperation_next], by rw [hu, endOperation_next], hcount, hoct⟩
  · obtain ⟨t, u, ht, hu, hmem, hcount, hmem', hval⟩ := decodeWhole_repeat f s
    exact ⟨release t, release u, by rw [ht, endOperation_next], by rw [hu, endOperation_next], hcount,
      fun hne => hval rfl (hcount ▸ hne), fun a => ⟨octetAt_congr hmem a, octetAt_congr (hmem'.trans hmem) a⟩⟩

/-! ### The end of an operation -/

@[simp] theorem exec_octetCont (d : Group) (s : State) :
    exec (.octetCont d) s = endOperation (decodeFirst (formOf s.op) (octetOf true d) s) := rfl

@[simp] theorem exec_octetLast (d : Group) (s : State) :
    exec (.octetLast d) s = endOperation (decodeFirst (formOf s.op) (octetOf false d) s) := rfl

/-- A step is the operation on `OP` (R50, R81). -/
theorem step_eq_exec (s : State) : step s = exec (decodeOp s.op) s := rfl

/-- Every encode procedure answers a next state: the failure of the size check, or the end of the loop (R57). -/
theorem encodeValue_answers (f : Form) (s : State) : ∃ t, encodeValue f s = .next t := by
  rcases Nat.lt_or_ge s.len (size f s.valIn) with hroom | hroom
  · exact ⟨_, encodeValue_failed hroom⟩
  · obtain ⟨t, ht, -⟩ := encodeValue_next hroom
    exact ⟨t, ht⟩

/-- A procedure that answers a next state makes an operation that ends released (R31, R72). -/
theorem endOperation_released {r : Result} (h : ∃ u, r = .next u) : ∃ t, endOperation r = .next t ∧ released t := by
  obtain ⟨u, rfl⟩ := h
  exact ⟨release u, endOperation_next u, released_release u⟩

/-- Every row ends with its working registers released, whatever the state (R31, R72). -/
theorem exec_released (i : Instr) (s : State) : ∃ t, exec i s = .next t ∧ released t := by
  have hencode (f : Form) := endOperation_released (encodeValue_answers f s)
  have hdecode (f : Form) := endOperation_released ((decodeWhole_next f s).imp fun _ => And.left)
  have hfirst (o : Octet) := endOperation_released ((decodeFirst_next (formOf s.op) o s).imp fun _ => And.left)
  cases i with
  | encu => rw [exec_encu]; exact hencode .unsigned
  | decu => rw [exec_decu]; exact hdecode .unsigned
  | encs => rw [exec_encs]; exact hencode .signed
  | decs => rw [exec_decs]; exact hdecode .signed
  | octetCont d => rw [exec_octetCont]; exact hfirst (octetOf true d)
  | octetLast d => rw [exec_octetLast]; exact hfirst (octetOf false d)

/-- Settles O46: every row ends through `endOperation`, and a step is one of the rows. -/
theorem nothingIsRetained : Obligations.NothingIsRetained := fun s =>
  ⟨fun i => exec_released i s, step_eq_exec s ▸ exec_released (decodeOp s.op) s⟩

end Sys2Proof.Machine
end

section
/-! PROOFS of the family 30_encoding: the two fields of an octet (rule R39), the sequences the encoders write (rules R40
and R57), and the inputs the decoders reject (rule R47). -/

namespace Sys2Proof

/-! ### The fields of an octet -/

/-- The group is the low seven bits (R39). -/
theorem octetD_eq_setWidth (o : Octet) : octetD o = o.setWidth 7 := by
  rw [octetD, BitVec.setWidth_eq_extractLsb' (by decide)]

theorem decodeOctet_of_octetC {o : Octet} (h : octetC o = true) : decodeOctet o = .octetCont (octetD o) := by
  rw [decodeOctet, if_pos h]

theorem decodeOctet_of_not_octetC {o : Octet} (h : octetC o = false) : decodeOctet o = .octetLast (octetD o) := by
  rw [decodeOctet, h, if_neg Bool.false_ne_true]

/-- Settles O4: `C` is set exactly from 0x80 on, and it alone tells the two formats apart. -/
theorem octetFields : Obligations.OctetFields := by
  intro o
  rw [← octetD_eq_setWidth]
  constructor
  · intro h
    exact decodeOctet_of_octetC (by rw [octetC_eq]; exact decide_eq_true h)
  · intro h
    exact decodeOctet_of_not_octetC (by rw [octetC_eq]; exact decide_eq_false (by omega))

/-! ### Sequences -/

/-- Octets with `C` = 1 and then one with `C` = 0 decode to the continuation pattern of R40. -/
theorem continuationPattern_decodeOctet {os : List Octet} {o : Octet} (hos : ∀ x ∈ os, octetC x = true)
    (ho : octetC o = false) : continuationPattern ((os ++ [o]).map decodeOctet) = true := by
  induction os with
  | nil => rw [List.nil_append, List.map_singleton, decodeOctet_of_not_octetC ho, continuationPattern]
  | cons x os ih =>
    obtain ⟨hx, hos⟩ := List.forall_mem_cons.mp hos
    rw [List.cons_append, List.map_cons, decodeOctet_of_octetC hx, continuationPattern, ih hos]

end Sys2Proof

namespace Sys2Proof.Machine

/-- The octets of a sequence found by scanning (R49) decode to a well-formed one (R40). -/
theorem wellFormedSeq_of_hasLength {s : State} {n : Nat} (h : hasLength s n) :
    wellFormedSeq ((List.range n).map fun k => decodeOctet (octetAt s k)) = true := by
  obtain ⟨h1, h10, -, hC, hlast⟩ := h
  obtain ⟨m, rfl⟩ : ∃ m, n = m + 1 := ⟨n - 1, by omega⟩
  have hcont : ∀ x ∈ (List.range m).map (octetAt s), octetC x = true :=
    List.forall_mem_map.mpr fun k hk => hC k (List.mem_range.mp hk)
  have hpat := continuationPattern_decodeOctet hcont hlast
  rw [Nat.add_sub_cancel, ← List.map_singleton (f := octetAt s), ← List.map_append, ← List.range_succ,
    List.map_map] at hpat
  have hlen : ((List.range (m + 1)).map fun k => decodeOctet (octetAt s k)).length = m + 1 := by simp
  rw [wellFormedSeq, hlen, decide_eq_true h1, decide_eq_true h10]
  exact hpat

/-- The octet the loop stores at offset `a` has `C` = 0 at offset `N`-1 alone (R57). -/
theorem octetC_loopOctet (f : Form) (w : Word) (n : Count) (k a : Nat) :
    octetC (loopOctet f w n k a) = decide (a + 1 ≠ n.toNat) := octetC_octetOf _ _

/-- With room, an encode leaves a sequence of exactly `COUNT` octets at the front of the buffer (R40, R57). -/
theorem encodeValue_hasLength {f : Form} {s : State} (h : size f s.valIn ≤ s.len) :
    ∃ t, encodeValue f s = .next t ∧ hasLength t t.count.toNat := by
  obtain ⟨t, ht, hkeep, -, hcount, -, -, -, hoct, -⟩ := encodeValue_next h
  have hpos := size_pos f s.valIn
  have hC : ∀ a < size f s.valIn, octetC (octetAt t a) = decide (a + 1 ≠ size f s.valIn) := fun a ha => by
    rw [hoct, if_pos ha, octetC_loopOctet, size_toNat]
  refine ⟨t, ht, ?_⟩
  rw [hcount, size_toNat]
  refine ⟨hpos, size_le f _, hkeep.len ▸ h, fun k hk => ?_, ?_⟩
  · rw [hC k (by omega)]; exact decide_eq_true (by omega)
  · rw [hC _ (by omega)]; exact decide_eq_false (by omega)

/-- Settles O16: what the encode stores has the continuation pattern, so it decodes to a well-formed sequence. -/
theorem encodersWriteSequences : Obligations.EncodersWriteSequences := by
  intro f s hroom
  obtain ⟨t, ht, hseq⟩ := encodeValue_hasLength hroom
  exact ⟨release t, by rw [exec_encodeInstr, ht, endOperation_next], hseq, wellFormedSeq_of_hasLength hseq⟩

/-! ### Rejected inputs -/

/-- No terminating octet among the first ten is one of two failures, by the length of the buffer (R67). -/
theorem unterminated_iff (s : State) :
    (∀ k < min 10 s.len, octetC (octetAt s k) = true) ↔ truncatedInput s ∨ overlongInput s := by
  rcases Nat.lt_or_ge s.len 10 with h | h
  · rw [Nat.min_eq_right h.le]
    exact ⟨fun hC => .inl ⟨by omega, hC⟩, fun hf => hf.elim And.right fun ho => absurd ho.1 (by omega)⟩
  · rw [Nat.min_eq_left h]
    exact ⟨fun hC => .inr ⟨h, hC⟩, fun hf => hf.elim (fun ht => absurd ht.1 (by omega)) And.right⟩

/-- A buffer that begins with a sequence is neither truncated nor overlong (R67). -/
theorem not_unterminated_of_hasLength {s : State} {n : Nat} (h : hasLength s n) :
    ¬(truncatedInput s ∨ overlongInput s) := by
  obtain ⟨h1, h10, hlen, -, hlast⟩ := h
  intro hf
  rw [(unterminated_iff s).mpr hf (n - 1) (by omega)] at hlast
  cases hlast

/-- `DECODE` answers 0 exactly where one of the three failures of a decode holds (R62, R67). -/
theorem decodeValue_count_eq_zero_iff (f : Form) (seed : Word) (s : State) :
    ∃ t, decodeValue f seed s = .next t ∧
      (t.count = 0#4 ↔ truncatedInput s ∨ overlongInput s ∨ wrongLead f s) := by
  simp only [← or_assoc]
  rcases hasLength_or_unterminated s with ⟨n, hn⟩ | hC
  · refine ⟨_, decodeValue_terminated hn, ?_⟩
    rw [or_iff_right (not_unterminated_of_hasLength hn)]
    split
    · next hlead =>
      obtain ⟨rfl, hlead⟩ := hlead
      exact iff_of_true (failDecode_count ..) ⟨hn, hlead⟩
    · next hlead =>
      refine iff_of_false ?_ fun hw => hlead ⟨hasLength_unique hn hw.1, hw.2⟩
      obtain ⟨h1, h10, -⟩ := hn
      rw [completeDecode_count, consumeMany_start_cnt seed s h10, ← BitVec.toNat_inj]
      simp only [BitVec.toNat_ofNat]
      omega
  · exact ⟨_, decodeValue_unterminated rfl hC,
      iff_of_true (failDecode_count ..) (.inl ((unterminated_iff s).mp hC))⟩

/-- An empty buffer holds no terminating octet (R67). -/
theorem truncatedInput_of_empty {s : State} (h : s.len = 0) : truncatedInput s :=
  ⟨by omega, fun k hk => by omega⟩

/-- A decode procedure answers 0 exactly where one of the three failures of a decode holds (R64, R65, R67). -/
theorem decodeWhole_count_eq_zero_iff (f : Form) (s : State) :
    ∃ t, decodeWhole f s = .next t ∧
      (t.count = 0#4 ↔ truncatedInput s ∨ overlongInput s ∨ wrongLead f s) := by
  cases f with
  | unsigned => exact decodeValue_count_eq_zero_iff .unsigned 0 s
  | signed =>
    by_cases h : s.len = 0
    · exact ⟨_, decodeSigned_empty h, iff_of_true (failDecode_count ..) (.inl (truncatedInput_of_empty h))⟩
    · rw [decodeWhole, decodeSigned_nonempty h]
      exact decodeValue_count_eq_zero_iff .signed _ { s with lead := octetAt s 0 }

/-- A decode rejects its input exactly in the four cases of R47; the first, the empty buffer, is truncated too. -/
theorem exec_decodeInstr_count_eq_zero_iff (f : Form) (s : State) :
    ∃ t, exec (decodeInstr f) s = .next t ∧
      (t.count = 0#4 ↔ s.len = 0 ∨ truncatedInput s ∨ overlongInput s ∨ wrongLead f s) := by
  obtain ⟨t, ht, hcount⟩ := decodeWhole_count_eq_zero_iff f s
  refine ⟨release t, by rw [exec_decodeInstr, ht, endOperation_next], ?_⟩
  rw [release_count, hcount, or_iff_right_of_imp fun h : s.len = 0 => .inl (truncatedInput_of_empty h)]

theorem legalLead_unsigned_eq_false (o : Octet) : legalLead .unsigned o = false ↔ o ≠ 0x81#8 := by
  simp [legalLead]

theorem legalLead_signed_eq_false (o : Octet) : legalLead .signed o = false ↔ o ≠ 0x80#8 ∧ o ≠ 0xff#8 := by
  simp [legalLead]

/-- Settles O22: by the failures of a decode, with the legal first octets of each form written out. -/
theorem decodersRejectExactly : Obligations.DecodersRejectExactly := by
  intro s
  simp only [← legalLead_unsigned_eq_false, ← legalLead_signed_eq_false]
  exact ⟨exec_decodeInstr_count_eq_zero_iff .unsigned s, exec_decodeInstr_count_eq_zero_iff .signed s⟩

end Sys2Proof.Machine
end

section
/-! PROOFS of the family 40_size: `FINDMSB` is the highest set bit position (rule R54). -/

namespace Sys2Proof.Machine

/-- No bit above `FINDMSB` is set, within the 64 bits or beyond them (R54). -/
theorem getLsbD_of_findMsb_lt {x : Word} {j : Nat} (h : findMsb x < j) : x.getLsbD j = false := by
  rcases Nat.lt_or_ge j 64 with hj | hj
  · exact findMsbFrom_above 63 x h (by omega)
  · exact BitVec.getLsbD_of_ge x j hj

/-- `FINDMSB` of a value other than 0 is a set bit: where the search answers 0, bit 0 is the only one left (R54). -/
theorem getLsbD_findMsb {x : Word} (hx : x ≠ 0) : x.getLsbD (findMsb x) = true := by
  rcases findMsbFrom_set 63 x with hzero | hset
  · by_contra hclear
    refine hx (BitVec.eq_of_getLsbD_eq fun j _ => Eq.trans ?_ BitVec.getLsbD_zero.symm)
    rcases Nat.eq_zero_or_pos j with rfl | hj
    · rwa [findMsb, hzero, Bool.not_eq_true] at hclear
    · exact getLsbD_of_findMsb_lt (by rwa [findMsb, hzero])
  · exact hset

/-- A value other than 0 lies between the power of two of its highest set bit and the next (R54). -/
theorem findMsb_eq_log2 {x : Word} (hx : x ≠ 0) : findMsb x = Nat.log2 x.toNat := by
  have hlow : 2 ^ findMsb x ≤ x.toNat := Nat.ge_two_pow_of_testBit (getLsbD_findMsb hx)
  have hhigh : x.toNat < 2 ^ (findMsb x + 1) := Nat.lt_pow_two_of_testBit _ fun _ hj => getLsbD_of_findMsb_lt hj
  have hnat : x.toNat ≠ 0 := fun h => hx (BitVec.eq_of_toNat_eq h)
  exact ((Nat.log2_eq_iff hnat).mpr ⟨hlow, hhigh⟩).symm

/-- Settles O8: the search answers a set bit with none above it, which is the logarithm. -/
theorem findMsbIsHighestSetBit : Obligations.FindMsbIsHighestSetBit := by
  intro x
  constructor
  · rintro rfl
    decide
  · intro hx
    exact ⟨findMsbFrom_le 63 x, getLsbD_findMsb hx, fun j hj _ => getLsbD_of_findMsb_lt hj, findMsb_eq_log2 hx⟩

end Sys2Proof.Machine
end

section
/-! PROOFS of the family 41_encode: the octets the two encoders write (rules R57, R59 and R60). What both forms share is
said once, with each group as repeated shifts of the value; each form then has its group in closed form. -/

namespace Sys2Proof

/-- The continuation bit is OR-ed to the group (R53, R57). -/
theorem octetOf_decide (p : Prop) [Decidable p] (d : Group) :
    octetOf (decide p) d = d.setWidth 8 ||| (if p then 0x80#8 else 0x00#8) := by
  by_cases hp : p
  · simp [octetOf, hp]
  · simp [octetOf, hp]

end Sys2Proof

namespace Sys2Proof.Machine

/-! ### What both encoders do -/

/-- With room, an encode answers its size, stores its octets and leaves the rest of the buffer (R57). -/
theorem exec_encodeInstr_room {f : Form} {s : State} (h : size f s.valIn ≤ s.len) :
    ∃ t, exec (encodeInstr f) s = .next t ∧ t.count.toNat = size f s.valIn ∧
      (∀ k, k < size f s.valIn → octetAt t k =
        (lowGroup ((shiftGroup f)^[size f s.valIn - 1 - k] s.valIn)).setWidth 8 |||
          (if k < size f s.valIn - 1 then 0x80#8 else 0x00#8)) ∧
      (∀ a, size f s.valIn ≤ a → octetAt t a = octetAt s a) := by
  obtain ⟨t, ht, -, -, hcount, -, -, -, hoct, -⟩ := encodeValue_next h
  refine ⟨release t, by rw [exec_encodeInstr, ht, endOperation_next], ?_, fun k hk => ?_, fun a ha => ?_⟩
  · rw [release_count, hcount, size_toNat]
  · have hlast : k + 1 ≠ size f s.valIn ↔ k < size f s.valIn - 1 := by omega
    rw [octetAt_release, hoct, if_pos hk, loopOctet, size_toNat, octetOf_decide]
    simp only [hlast]
  · rw [octetAt_release, hoct, if_neg (Nat.not_lt.mpr ha)]

/-- Without room, an encode answers 0 and leaves the buffer (R57, R70). -/
theorem exec_encodeInstr_noRoom {f : Form} {s : State} (h : s.len < size f s.valIn) :
    ∃ t, exec (encodeInstr f) s = .next t ∧ t.count = 0#4 ∧ t.mem = s.mem := by
  rw [exec_encodeInstr, encodeValue_failed h]
  exact ⟨_, endOperation_next _, rfl, rfl⟩

/-! ### The groups of each form in closed form -/

/-- The group of a value is its low seven bits (R53, R59). -/
theorem lowGroup_setWidth_eq_and (w : Word) : (lowGroup w).setWidth 8 = (w &&& 0x7f#64).setWidth 8 := by
  apply BitVec.eq_of_toNat_eq
  rw [BitVec.toNat_setWidth, lowGroup_toNat, BitVec.toNat_setWidth, BitVec.toNat_and]
  exact congrArg (· % 2 ^ 8) (Nat.and_two_pow_sub_one_eq_mod w.toNat 7).symm

/-- The group of a value is the signed value modulo 128 (R53, R60). -/
theorem lowGroup_setWidth_eq_ofInt (w : Word) : (lowGroup w).setWidth 8 = BitVec.ofInt 8 (w.toInt % 128) := by
  have hmod : w.toInt % 128 = (w.toNat % 128 : Nat) := by
    rw [BitVec.toInt_eq_toNat_bmod, Int.bmod_def]
    split <;> omega
  apply BitVec.eq_of_toNat_eq
  rw [BitVec.toNat_setWidth, lowGroup_toNat, hmod, BitVec.ofInt_natCast, BitVec.toNat_ofNat]

/-- Settles O12: a logical shift repeated is one shift, so the groups are the base-128 digits of the value. -/
theorem encuWritesUnsignedOctets : Obligations.EncuWritesUnsignedOctets := by
  intro s
  refine ⟨fun hroom => ?_, exec_encodeInstr_noRoom (f := .unsigned)⟩
  simp only [← shiftGroup_unsigned_iterate, ← lowGroup_setWidth_eq_and]
  exact exec_encodeInstr_room (f := .unsigned) hroom

/-- Settles O13: an arithmetic shift repeated is division rounding down, so the groups are the base-128 digits of the
two's-complement value. -/
theorem encsWritesSignedOctets : Obligations.EncsWritesSignedOctets := by
  intro s
  refine ⟨fun hroom => ?_, exec_encodeInstr_noRoom (f := .signed)⟩
  simp only [← shiftGroup_signed_iterate_toInt, ← lowGroup_setWidth_eq_ofInt]
  exact exec_encodeInstr_room (f := .signed) hroom

end Sys2Proof.Machine
end

section
/-! PROOFS of the family 42_decode: the transitions of the decoder's state machine (rules R62 and R63), and the value a
decode answers (rules R64 and R65). What both forms share is said once, with the value as the accumulator modulo 2^64;
each form then has the range its value lies in. -/

namespace Sys2Proof.Machine

/-! ### One transition -/

/-- The transition where a test before the read fires (R62). -/
theorem decodePass_of_readingFailure_some (f : Form) {s : State} {c : Cause} (h : readingFailure s = some c) :
    decodePass f s = .next (failDecode c s) := by
  rw [decodePass_next, h]

/-- The transition that reads: it takes the octet at offset `CNT` (R62). -/
theorem decodePass_inside (f : Form) {s : State} (h₁₀ : s.cnt.toNat ≠ 10) (hlen : s.cnt.toNat < s.len) :
    decodePass f s = .next (readingOctet f (octetAt s s.cnt.toNat) s) := by
  have hnone : readingFailure s = none := readingFailure_none.mpr ⟨fun h => h₁₀ (by rw [h]; rfl), hlen⟩
  rw [decodePass_next, hnone]

theorem readingFailure_overlong {s : State} (h : s.cnt.toNat = 10) : readingFailure s = some .overlong := by
  rw [readingFailure, if_pos (BitVec.eq_of_toNat_eq h)]

theorem readingFailure_truncatedInput {s : State} (h₁₀ : s.cnt.toNat ≠ 10) (hlen : s.len ≤ s.cnt.toNat) :
    readingFailure s = some .truncatedInput := by
  rw [readingFailure, if_neg fun h => h₁₀ (by rw [h]; rfl), if_pos hlen]

/-- Whatever an octet leads to, it is in `OCT` and accumulated (R63). -/
theorem readingOctet_decOct_acc (f : Form) (o : Octet) (s : State) :
    (readingOctet f o s).decOct = o ∧ (readingOctet f o s).acc = accumulate s.acc (octetD o) := by
  rcases readingOctet_cases f o s with ⟨-, e⟩ | ⟨-, -, e⟩ | ⟨-, -, e⟩ <;> rw [e] <;> exact ⟨rfl, rfl⟩

/-- Settles O27: the transition reads the octet at `CNT`, and accumulating is times 128 and plus the low seven bits. -/
theorem octetIsAccumulated : Obligations.OctetIsAccumulated := by
  intro f s h₁₀ hlen
  obtain ⟨hoct, hacc⟩ := readingOctet_decOct_acc f (octetAt s s.cnt.toNat) s
  exact ⟨_, decodePass_inside f h₁₀.ne hlen, hoct, by rw [hacc, accumulate_toNat, octetD_toNat, hoct]⟩

/-- The octet consumed is the 10th after an illegal lead: `LEAD` is then the one held before, since `CNT` was 9 (R62). -/
theorem consumeOctet_wrongLead_iff (f : Form) (o : Octet) (s : State) :
    ((consumeOctet o s).cnt = 10#4 ∧ legalLead f (consumeOctet o s).lead = false) ↔
      s.cnt.toNat + 1 = 10 ∧ legalLead f s.lead = false := by
  have hcnt : (consumeOctet o s).cnt = 10#4 ↔ s.cnt.toNat + 1 = 10 := by
    rw [consumeOctet_cnt]
    constructor <;> intro h <;> bv_omega
  rw [hcnt]
  refine and_congr_right fun h => ?_
  have hne : s.cnt ≠ 0#4 := fun h₀ => by rw [h₀] at h; cases h
  rw [consumeOctet_lead, if_neg hne]

theorem readingOctet_of_octetC (f : Form) {o : Octet} (s : State) (hC : octetC o = true) :
    readingOctet f o s = consumeOctet o s := by
  rw [readingOctet, if_pos hC]

theorem readingOctet_of_legal {f : Form} {o : Octet} {s : State} (hC : octetC o = false)
    (h : s.cnt.toNat + 1 < 10 ∨ legalLead f s.lead = true) :
    readingOctet f o s = completeDecode (consumeOctet o s) := by
  have hlegal : ¬(s.cnt.toNat + 1 = 10 ∧ legalLead f s.lead = false) := fun ⟨h₁₀, hl⟩ => by
    rcases h with h | h
    · omega
    · rw [h] at hl; cases hl
  rw [readingOctet, hC, if_neg Bool.false_ne_true, if_neg (mt (consumeOctet_wrongLead_iff f o s).mp hlegal)]

theorem readingOctet_of_wrongLead {f : Form} {o : Octet} {s : State} (hC : octetC o = false)
    (h₁₀ : s.cnt.toNat + 1 = 10) (hlead : legalLead f s.lead = false) :
    readingOctet f o s = failDecode .nonCanonicalMaxLength (consumeOctet o s) := by
  rw [readingOctet, hC, if_neg Bool.false_ne_true, if_pos ((consumeOctet_wrongLead_iff f o s).mpr ⟨h₁₀, hlead⟩)]

/-- `LEAD` takes the octet at `CNT` only where that is the octet at offset 0 (R15). -/
theorem consumeOctet_octetAt_cnt_lead (s : State) :
    (consumeOctet (octetAt s s.cnt.toNat) s).lead = if s.cnt = 0#4 then octetAt s 0 else s.lead := by
  rw [consumeOctet_lead]
  split
  · next h => rw [h]; rfl
  · rfl

/-- Settles O28: each row of the table is the equation of `decodePass` or `readingOctet` for its condition. -/
theorem decoderTransitionTable : Obligations.DecoderTransitionTable := by
  intro f s _
  refine ⟨fun _ h₁₀ => ?overlong, fun _ h₁₀ hlen => ?truncated, fun hst h₁₀ hlen => ?read, fun hst k => ?terminal⟩
  case overlong =>
    exact ⟨_, decodePass_of_readingFailure_some f (readingFailure_overlong h₁₀), rfl, rfl, rfl, rfl, rfl, rfl⟩
  case truncated =>
    exact ⟨_, decodePass_of_readingFailure_some f (readingFailure_truncatedInput h₁₀ hlen),
      rfl, rfl, rfl, rfl, rfl, rfl⟩
  case read =>
    rw [decodePass_inside f h₁₀ hlen]
    refine ⟨fun hC => ?_, fun hC hlegal => ?_, fun hC hten hlead => ?_⟩
    · rw [readingOctet_of_octetC f s hC]
      exact ⟨_, rfl, hst, rfl, rfl, consumeOctet_octetAt_cnt_lead s, rfl, rfl, rfl⟩
    · rw [readingOctet_of_legal hC hlegal]
      exact ⟨_, rfl, rfl, rfl, rfl, rfl, rfl, rfl⟩
    · rw [readingOctet_of_wrongLead hC hten hlead]
      exact ⟨_, rfl, rfl, rfl, rfl, rfl, rfl, rfl⟩
  case terminal =>
    have hne : s.st ≠ .reading := by rcases hst with h | h <;> simp [h]
    exact decodeLoop_terminal k f hne

/-! ### What both decoders answer -/

/-- Consuming octets takes no free value (log 2). -/
theorem consumeMany_draws (k : Nat) (s : State) : (consumeMany k s).draws = s.draws := by
  induction k generalizing s with
  | zero => rfl
  | succ k ih => exact ih _

/-- `DECODE` on an accepted sequence (R62): `COUNT` is its length, and `VAL_OUT` the seed and the groups modulo 2^64. -/
theorem decodeValue_accepted {f : Form} (seed : Word) {s : State} {n : Nat} (h : hasLength s n)
    (hlead : n = 10 → legalLead f (octetAt s 0) = true) :
    ∃ t, decodeValue f seed s = .next t ∧ t.count.toNat = n ∧
      t.valOut.toNat = (seed.toNat * 2 ^ (7 * n) + unsignedValue s n) % 2 ^ 64 ∧ t.mem = s.mem := by
  have hlegal : ¬(n = 10 ∧ legalLead f (octetAt s 0) = false) := fun ⟨hn, hl⟩ => by
    rw [hlead hn] at hl; cases hl
  have ⟨_, h₁₀, _⟩ := h
  have hrun := decodeValue_terminated (f := f) (seed := seed) h
  rw [if_neg hlegal] at hrun
  refine ⟨_, hrun, ?_, ?_, (consumeMany_keeps n _).mem⟩
  · rw [completeDecode_count, consumeMany_cnt (by simpa using h₁₀), startDecode_cnt, BitVec.toNat_ofNat, Nat.zero_mod,
      Nat.zero_add]
  · rw [completeDecode_valOut, consumeMany_acc_toNat seed s h₁₀]

/-- `DECODE` on every other input ends in the failure entry, with the buffer as it was (R62, R67). -/
theorem decodeValue_rejected {f : Form} (seed : Word) {s : State}
    (h : (truncatedInput s ∨ overlongInput s) ∨ wrongLead f s) :
    ∃ c u, decodeValue f seed s = .next (failDecode c u) ∧ u.mem = s.mem ∧ u.draws = s.draws := by
  rcases h with hC | ⟨hn, hlead⟩
  · exact ⟨_, _, decodeValue_unterminated rfl ((unterminated_iff s).mpr hC), (consumeMany_keeps _ _).mem,
      consumeMany_draws _ _⟩
  · have hrun := decodeValue_terminated (f := f) (seed := seed) hn
    rw [if_pos ⟨rfl, hlead⟩] at hrun
    exact ⟨_, _, hrun, (consumeMany_keeps _ _).mem, consumeMany_draws _ _⟩

/-- A decode operation ends with the state its procedure answers, released (R31). -/
theorem exec_decodeInstr_eq_next {f : Form} {s t : State} (h : decodeWhole f s = .next t) :
    exec (decodeInstr f) s = .next (release t) := by
  rw [exec_decodeInstr, h, endOperation_next]

/-- A decode of an accepted sequence, in either form: the seed is that of the form and the first octet (R64, R65). -/
theorem exec_decodeInstr_accepted {f : Form} {s : State} {n : Nat} (h : hasLength s n)
    (hlead : n = 10 → legalLead f (octetAt s 0) = true) :
    ∃ t, exec (decodeInstr f) s = .next t ∧ t.count.toNat = n ∧
      t.valOut.toNat =
        ((seedOf f (signIndicator (octetAt s 0))).toNat * 2 ^ (7 * n) + unsignedValue s n) % 2 ^ 64 ∧
      t.mem = s.mem := by
  cases f with
  | unsigned =>
    obtain ⟨t, ht, hanswer⟩ := decodeValue_accepted 0 h hlead
    exact ⟨release t, exec_decodeInstr_eq_next ht, hanswer⟩
  | signed =>
    have hlen : s.len ≠ 0 := by obtain ⟨h1, -, hle, -⟩ := h; omega
    obtain ⟨t, ht, hanswer⟩ := decodeValue_accepted (s := { s with lead := octetAt s 0 }) _ h hlead
    exact ⟨release t, exec_decodeInstr_eq_next ((decodeSigned_nonempty hlen).trans ht), hanswer⟩

/-- A decode procedure ends on every other input in the failure entry, with the buffer as it was (R64, R65, R70). -/
theorem decodeWhole_rejected {f : Form} {s : State} (h : (truncatedInput s ∨ overlongInput s) ∨ wrongLead f s) :
    ∃ c u, decodeWhole f s = .next (failDecode c u) ∧ u.mem = s.mem ∧ u.draws = s.draws := by
  cases f with
  | unsigned => exact decodeValue_rejected 0 h
  | signed =>
    by_cases hlen : s.len = 0
    · exact ⟨_, s, decodeSigned_empty hlen, rfl, rfl⟩
    · rw [decodeWhole, decodeSigned_nonempty hlen]
      exact decodeValue_rejected (s := { s with lead := octetAt s 0 }) _ h

/-- A decode of every other input, in either form: `COUNT` = 0, a free value, the buffer as it was (R64, R65, R71). -/
theorem exec_decodeInstr_rejected {f : Form} {s : State}
    (h : (truncatedInput s ∨ overlongInput s) ∨ wrongLead f s) :
    ∃ t, exec (decodeInstr f) s = .next t ∧ t.count = 0#4 ∧ t.valOut = Config.freeValOut s.draws ∧ t.mem = s.mem := by
  obtain ⟨c, u, hu, hmem, hdraws⟩ := decodeWhole_rejected h
  exact ⟨release (failDecode c u), exec_decodeInstr_eq_next hu, rfl, congrArg Config.freeValOut hdraws, hmem⟩

/-! ### The range of the value of an accepted sequence -/

theorem legalLead_unsigned (o : Octet) : legalLead .unsigned o = true ↔ o = 0x81#8 := by
  simp [legalLead]

theorem legalLead_signed (o : Octet) : legalLead .signed o = true ↔ o = 0x80#8 ∨ o = 0xff#8 := by
  simp [legalLead]

/-- The first digit fixes the value up to the bits of the digits after it (R41). -/
theorem unsignedValue_first_digit (s : State) (n : Nat) :
    digitAt s 0 * 2 ^ (7 * n) ≤ unsignedValue s (n + 1) ∧ unsignedValue s (n + 1) < (digitAt s 0 + 1) * 2 ^ (7 * n) := by
  induction n with
  | zero => simp [unsignedValue_succ]
  | succ n ih =>
    obtain ⟨hlow, hhigh⟩ := ih
    have hd := digitAt_lt s (n + 1)
    rw [unsignedValue_succ s (n + 1), show 7 * (n + 1) = 7 * n + 7 by ring, pow_add, ← Nat.mul_assoc, ← Nat.mul_assoc]
    omega

/-- An accepted unsigned sequence has a value of 64 bits: below ten octets by its length, at ten by its lead (R46). -/
theorem unsignedValue_lt_of_legalLead {s : State} {n : Nat} (h₁₀ : n ≤ 10)
    (hlead : n = 10 → legalLead .unsigned (octetAt s 0) = true) : unsignedValue s n < 2 ^ 64 := by
  rcases Nat.lt_or_ge n 10 with hn | hn
  · calc unsignedValue s n < 2 ^ (7 * n) := unsignedValue_lt s n
      _ ≤ 2 ^ 64 := Nat.pow_le_pow_right (by norm_num) (by omega)
  · obtain rfl : n = 10 := by omega
    have hfirst : digitAt s 0 = 1 := by rw [digitAt, (legalLead_unsigned _).mp (hlead rfl)]; rfl
    have hhigh := (unsignedValue_first_digit s 9).2
    rw [hfirst] at hhigh
    exact hhigh

/-- Settles O20: the value of an accepted sequence is below 2^64, so the accumulator holds it exactly. -/
theorem decuReadsUnsignedValue : Obligations.DecuReadsUnsignedValue := by
  intro s
  simp only [← legalLead_unsigned, ← legalLead_unsigned_eq_false]
  refine ⟨fun n hn hlead => ?accepted, fun hn hlead => ?wrongLead, fun hC => ?unterminated⟩
  case accepted =>
    obtain ⟨t, ht, hcount, hval, hmem⟩ := exec_decodeInstr_accepted hn hlead
    refine ⟨t, ht, hcount, ?_, hmem⟩
    have ⟨_, h₁₀, _⟩ := hn
    have hlt := unsignedValue_lt_of_legalLead h₁₀ hlead
    have hseed : (seedOf .unsigned (signIndicator (octetAt s 0))).toNat = 0 := rfl
    rw [hval, hseed, Nat.zero_mul, Nat.zero_add, Nat.mod_eq_of_lt hlt]
  case wrongLead =>
    exact exec_decodeInstr_rejected (f := .unsigned) (.inr ⟨hn, hlead⟩)
  case unterminated => exact exec_decodeInstr_rejected (f := .unsigned) (.inl hC)

/-- As a two's-complement number the first digit is the group sign-extended, since the sign indicator is its top bit;
it fixes the value up to the bits of the digits after it (R42). -/
theorem signedValue_first_digit (s : State) (n : Nat) :
    (octetD (octetAt s 0)).toInt * 2 ^ (7 * n) ≤ signedValue s (n + 1) ∧
      signedValue s (n + 1) < ((octetD (octetAt s 0)).toInt + 1) * 2 ^ (7 * n) := by
  obtain ⟨hlow, hhigh⟩ := unsignedValue_first_digit s n
  have hlow' : (digitAt s 0 : Int) * 2 ^ (7 * n) ≤ unsignedValue s (n + 1) := by exact_mod_cast hlow
  have hhigh' : (unsignedValue s (n + 1) : Int) < (digitAt s 0 + 1) * 2 ^ (7 * n) := by exact_mod_cast hhigh
  have hgroup : (octetD (octetAt s 0)).toInt =
      if signIndicator (octetAt s 0) then (digitAt s 0 : Int) - 128 else digitAt s 0 := by
    rw [signIndicator_eq, BitVec.toInt_eq_toNat_cond, digitAt]
    simp only [decide_eq_true_eq]
    split <;> split <;> omega
  rw [hgroup, signedValue, show 7 * (n + 1) = 7 * n + 7 by ring, pow_add]
  split
  · constructor <;> linarith
  · exact ⟨hlow', hhigh'⟩

/-- An accepted signed sequence has a value of 64 bits: below ten octets by its length, at ten by its lead, whose group
only repeats the sign (R46). -/
theorem signedValue_range_of_legalLead {s : State} {n : Nat} (h₁ : 1 ≤ n) (h₁₀ : n ≤ 10)
    (hlead : n = 10 → legalLead .signed (octetAt s 0) = true) :
    -2 ^ 63 ≤ signedValue s n ∧ signedValue s n < 2 ^ 63 := by
  obtain ⟨m, rfl⟩ : ∃ m, n = m + 1 := ⟨n - 1, by omega⟩
  obtain ⟨hlow, hhigh⟩ := signedValue_first_digit s m
  rcases Nat.lt_or_ge m 9 with hm | hm
  · have hpow : (2 : Int) ^ (7 * m) ≤ 2 ^ 56 := pow_le_pow_right₀ (by norm_num) (by omega)
    have hpos : (0 : Int) < 2 ^ (7 * m) := by positivity
    have hmin : -64 * (2 : Int) ^ (7 * m) ≤ (octetD (octetAt s 0)).toInt * 2 ^ (7 * m) :=
      mul_le_mul_of_nonneg_right (BitVec.le_toInt _) hpos.le
    have hmax : ((octetD (octetAt s 0)).toInt + 1) * (2 : Int) ^ (7 * m) ≤ 64 * 2 ^ (7 * m) :=
      mul_le_mul_of_nonneg_right (Int.add_one_le_of_lt BitVec.toInt_lt) hpos.le
    omega
  · obtain rfl : m = 9 := by omega
    rcases (legalLead_signed _).mp (hlead rfl) with hpos | hneg
    · have hgroup : (octetD (octetAt s 0)).toInt = 0 := by rw [hpos]; decide
      rw [hgroup] at hlow hhigh
      omega
    · have hgroup : (octetD (octetAt s 0)).toInt = -1 := by rw [hneg]; decide
      rw [hgroup] at hlow hhigh
      omega

/-- The seed of a negative value stands for its bits above those of the digits: seed and digits are the signed value
modulo 2^64 (R65). -/
theorem signedSeed_add_unsignedValue_modEq (s : State) (n : Nat) :
    (((signedSeed (signIndicator (octetAt s 0))).toNat * 2 ^ (7 * n) + unsignedValue s n : Nat) : Int)
      ≡ signedValue s n [ZMOD (2 ^ 64 : Nat)] := by
  rw [signedValue, signedSeed]
  split
  · refine (Int.modEq_iff_dvd.mpr ⟨2 ^ (7 * n), ?_⟩).symm
    rw [BitVec.toNat_allOnes]
    push_cast
    ring
  · simp

/-- Settles O21: the value of an accepted sequence is one of 64 bits, and the accumulator is it modulo 2^64. -/
theorem decsReadsSignedValue : Obligations.DecsReadsSignedValue := by
  intro s
  simp only [← legalLead_signed, Bool.not_eq_true]
  refine ⟨fun n hn hlead => ?accepted, fun hn hlead => ?wrongLead, fun hC => ?unterminated⟩
  case accepted =>
    obtain ⟨t, ht, hcount, hval, hmem⟩ := exec_decodeInstr_accepted hn hlead
    refine ⟨t, ht, hcount, ?_, hmem⟩
    have ⟨h₁, h₁₀, _⟩ := hn
    obtain ⟨hlow, hhigh⟩ := signedValue_range_of_legalLead h₁ h₁₀ hlead
    calc t.valOut.toInt = (signedValue s n).bmod (2 ^ 64) := by
          rw [BitVec.toInt_eq_toNat_bmod, hval, seedOf, Int.natCast_mod,
            signedSeed_add_unsignedValue_modEq s n, Int.emod_bmod]
      _ = signedValue s n := Int.bmod_eq_of_le (by omega) (by omega)
  case wrongLead => exact exec_decodeInstr_rejected (f := .signed) (.inr ⟨hn, hlead⟩)
  case unterminated => exact exec_decodeInstr_rejected (f := .signed) (.inl hC)

end Sys2Proof.Machine
end

section
/-! PROOFS of the family 60_exceptions: what a failed operation leaves (rules R70 and R71). An operation is an encode or
a decode, and each answers `COUNT` = 0 through the failure entry alone. -/

namespace Sys2Proof.Machine

/-- The four operations are the encode and the decode of each form (R2, R50). -/
theorem isOperation_iff (i : Instr) : isOperation i = true ↔ ∃ f, i = encodeInstr f ∨ i = decodeInstr f := by
  constructor
  · intro h
    cases i with
    | encu => exact ⟨.unsigned, .inl rfl⟩
    | decu => exact ⟨.unsigned, .inr rfl⟩
    | encs => exact ⟨.signed, .inl rfl⟩
    | decs => exact ⟨.signed, .inr rfl⟩
    | octetCont d => cases h
    | octetLast d => cases h
  · rintro ⟨f, rfl | rfl⟩ <;> cases f <;> rfl

/-- The failure entry of an encode: `COUNT` = 0, the buffer as it was, and a free value in `VAL_OUT` (R57, R70, R71). -/
theorem exec_encodeInstr_failed {f : Form} {s : State} (h : s.len < size f s.valIn) :
    ∃ t, exec (encodeInstr f) s = .next t ∧ t.count = 0#4 ∧ t.valOut = Config.freeValOut s.draws ∧ t.mem = s.mem := by
  rw [exec_encodeInstr, encodeValue_failed h]
  exact ⟨_, endOperation_next _, rfl, rfl, rfl⟩

/-- An encode that answers 0 is one without room, since a size is never 0: it has written nothing (R57, R71). -/
theorem exec_encodeInstr_of_count_eq_zero (f : Form) (s : State) :
    ∃ t, exec (encodeInstr f) s = .next t ∧
      (t.count = 0#4 → t.valOut = Config.freeValOut s.draws ∧ t.mem = s.mem) := by
  rcases Nat.lt_or_ge s.len (size f s.valIn) with hroom | hroom
  · obtain ⟨t, ht, -, hleft⟩ := exec_encodeInstr_failed hroom
    exact ⟨t, ht, fun _ => hleft⟩
  · obtain ⟨t, ht, hcount, -⟩ := exec_encodeInstr_room hroom
    refine ⟨t, ht, fun hzero => ?_⟩
    have hpos := size_pos f s.valIn
    rw [← hcount, hzero] at hpos
    cases hpos

/-- A decode that answers 0 is one of a rejected input, since an accepted sequence has an octet (R62, R71). -/
theorem exec_decodeInstr_of_count_eq_zero (f : Form) (s : State) :
    ∃ t, exec (decodeInstr f) s = .next t ∧
      (t.count = 0#4 → t.valOut = Config.freeValOut s.draws ∧ t.mem = s.mem) := by
  by_cases hreject : (truncatedInput s ∨ overlongInput s) ∨ wrongLead f s
  · obtain ⟨t, ht, -, hleft⟩ := exec_decodeInstr_rejected hreject
    exact ⟨t, ht, fun _ => hleft⟩
  · obtain ⟨t, ht, hcount⟩ := decodeWhole_count_eq_zero_iff f s
    exact ⟨release t, exec_decodeInstr_eq_next ht, fun hzero => absurd (or_assoc.mpr (hcount.mp hzero)) hreject⟩

/-- Settles O44: an operation is an encode or a decode, and one that answers 0 has left the buffer as it was. -/
theorem failureLeavesBuffer : Obligations.FailureLeavesBuffer := by
  intro i s hi
  have hleft : ∃ t, exec i s = .next t ∧
      (t.count = 0#4 → t.valOut = Config.freeValOut s.draws ∧ t.mem = s.mem) := by
    obtain ⟨f, rfl | rfl⟩ := (isOperation_iff i).mp hi
    · exact exec_encodeInstr_of_count_eq_zero f s
    · exact exec_decodeInstr_of_count_eq_zero f s
  obtain ⟨t, ht, hzero⟩ := hleft
  refine ⟨t, ht, fun hcount => ?_⟩
  obtain ⟨hval, hmem⟩ := hzero hcount
  exact ⟨octetAt_congr hmem, hval⟩

end Sys2Proof.Machine
end

section
/-! PROOFS of the family other, 1: the bytes of the rows and the rows of the bytes (rules R39 and R50). Both spaces
are one octet wide, so the two directions are the field laws of an octet and of `OP`. -/

namespace Sys2Proof

open Sys2Proof.Machine

/-- Settles O3: the bytes are literals. -/
theorem decodedWords : Obligations.DecodedWords := by
  unfold Obligations.DecodedWords
  decide

/-- In its own space the encoding of a row is read as that row. -/
theorem decodeBytes_encode (i : Instr) (rest : List Octet) :
    decodeBytes (spaceOf i) (encode i :: rest) = .ok (i, rest) := by
  cases h : spaceOf i with
  | select =>
    have hcode : (encode i).toNat < 4 := by
      cases i with
      | octetCont d => cases h
      | octetLast d => cases h
      | _ => decide
    have hop : decodeOp ((encode i).setWidth 2) = i := decodeOp_selectCode h
    rw [decodeBytes, if_pos hcode, hop]
  | wire => rw [decodeBytes, decodeOctet_encode h]

/-- Settles O5: an operation by its code, an octet by its fields. -/
theorem decodeOfEncode : Obligations.DecodeOfEncode := decodeBytes_encode

/-- An octet is the encoding of the row it is read as (R39). -/
theorem encode_decodeOctet (o : Octet) : spaceOf (decodeOctet o) = .wire ∧ encode (decodeOctet o) = o := by
  cases hC : octetC o with
  | true => rw [decodeOctet_of_octetC hC]; exact ⟨rfl, by rw [encode, ← hC, octetOf_fields]⟩
  | false => rw [decodeOctet_of_not_octetC hC]; exact ⟨rfl, by rw [encode, ← hC, octetOf_fields]⟩

/-- A value of `OP` is the code of the operation it selects (R50). -/
theorem encode_decodeOp (op : BitVec 2) :
    spaceOf (decodeOp op) = .select ∧ encode (decodeOp op) = op.setWidth 8 := by
  revert op; decide

/-- Settles O6: an octet is its two fields, and a byte below 4 is its low two bits. -/
theorem encodeOfDecode : Obligations.EncodeOfDecode := by
  intro sp b bs rest i h
  cases sp with
  | select =>
    rw [decodeBytes] at h
    split at h
    · next hlt =>
      cases h
      obtain ⟨hspace, hcode⟩ := encode_decodeOp (b.setWidth 2)
      exact ⟨hspace, by rw [hcode]; bv_omega, rfl⟩
    · cases h
  | wire =>
    cases h
    obtain ⟨hspace, hcode⟩ := encode_decodeOctet b
    exact ⟨hspace, hcode, rfl⟩

end Sys2Proof
end

section
/-! PROOFS of the family other, 2: the two sizes are the least octet counts that hold the value (rules R55 and R56).
Both come from one fact: `FINDMSB` is at most `m` exactly below 2^(m+1). -/

namespace Sys2Proof.Machine

/-- Settles O9: the values are literals. -/
theorem sizeCornerCases : Obligations.SizeCornerCases := by
  unfold Obligations.SizeCornerCases
  decide

/-- `FINDMSB` bounds the value, and is the least that does (R54). -/
theorem findMsb_le_iff (x : Word) (m : Nat) : findMsb x ≤ m ↔ x.toNat < 2 ^ (m + 1) := by
  constructor
  · exact fun h => Nat.lt_pow_two_of_testBit _ fun _ hj => getLsbD_of_findMsb_lt (by omega)
  · intro h
    by_cases hx : x = 0
    · rw [hx, show findMsb 0 = 0 by decide]; exact Nat.zero_le m
    · have hnat : x.toNat ≠ 0 := fun h => hx (BitVec.eq_of_toNat_eq h)
      rw [findMsb_eq_log2 hx]
      exact Nat.lt_succ_iff.mp ((Nat.log2_lt hnat).mpr h)

/-- `n` octets hold an unsigned value exactly where USIZE is at most `n` (R55). -/
theorem usize_le_iff (v : Word) {n : Nat} (hn : 1 ≤ n) : usize v ≤ n ↔ v.toNat < 2 ^ (7 * n) := by
  have hmsb : usize v ≤ n ↔ findMsb v ≤ 7 * n - 1 := by rw [usize]; omega
  rw [hmsb, findMsb_le_iff, Nat.sub_add_cancel (by omega)]

/-- `m` of R56 is the value itself or, for a negative one, the distance from −1. -/
theorem signMagnitude_toNat (v : Word) :
    ((signMagnitude v).toNat : Int) = if v.toInt < 0 then -v.toInt - 1 else v.toInt := by
  have hcond := BitVec.toInt_eq_msb_cond v
  have hlt := v.isLt
  rw [signMagnitude]
  cases hm : v.msb with
  | false =>
    rw [hm, if_neg Bool.false_ne_true] at hcond
    rw [if_neg Bool.false_ne_true, if_neg (by omega), hcond]
  | true =>
    rw [hm, if_pos rfl] at hcond
    rw [if_pos rfl, BitVec.toNat_not, if_pos (by omega)]
    omega

/-- `n` octets hold a signed value exactly where SSIZE is at most `n` (R56). -/
theorem ssize_le_iff (v : Word) {n : Nat} (hn : 1 ≤ n) :
    ssize v ≤ n ↔ -(2 : Int) ^ (7 * n - 1) ≤ v.toInt ∧ v.toInt < (2 : Int) ^ (7 * n - 1) := by
  have hmsb : ssize v ≤ n ↔ findMsb (signMagnitude v) ≤ 7 * n - 2 := by rw [ssize]; omega
  have hmag := signMagnitude_toNat v
  rw [hmsb, findMsb_le_iff, show 7 * n - 2 + 1 = 7 * n - 1 by omega, ← Int.ofNat_lt]
  push_cast
  rw [hmag]
  split <;> omega

/-- Settles O10: by the exact bound at `usize v` and at every other count. -/
theorem usizeIsLeast : Obligations.UsizeIsLeast := fun v =>
  have hpos := size_pos .unsigned v
  ⟨hpos, size_le .unsigned v, (usize_le_iff v hpos).mp le_rfl, fun _ hn => (usize_le_iff v hn).mpr⟩

/-- Settles O11: by the exact bounds at `ssize v` and at every other count. -/
theorem ssizeIsLeast : Obligations.SsizeIsLeast := fun v =>
  have hpos := size_pos .signed v
  have ⟨hlow, hhigh⟩ := (ssize_le_iff v hpos).mp le_rfl
  ⟨hpos, size_le .signed v, hlow, hhigh, fun _ hn hl hh => (ssize_le_iff v hn).mpr ⟨hl, hh⟩⟩

end Sys2Proof.Machine
end

section
/-! PROOFS of the family other, 3: the whole decode in closed form (rules R62, R64 and R65). An input is accepted or has
one of three failures; in each case the state a decode answers is written out, and the statements about what a decode
depends on, what it leaves alone and which cause it gives read it off. -/

namespace Sys2Proof.Machine

/-! ### The state a decode answers -/

/-- The input a decode of the form accepts: a sequence of `n` octets, at ten with a legal lead (R46, R47). -/
structure Accepts (f : Form) (s : State) (n : Nat) : Prop where
  sequence : hasLength s n
  lead : n = 10 → legalLead f (octetAt s 0) = true

/-- The condition of each failure of a decode (R67); the other causes are none of a decode. -/
def DecodeFailure (f : Form) (s : State) : Cause → Prop
  | .truncatedInput => truncatedInput s
  | .overlong => overlongInput s
  | .nonCanonicalMaxLength => wrongLead f s
  | .insufficientBuffer => False
  | .noFailure => False

/-- A sequence is accepted, or has ten octets and a lead that is not legal (R46). -/
theorem accepts_or_wrongLead (f : Form) {s : State} {n : Nat} (h : hasLength s n) :
    Accepts f s n ∨ n = 10 ∧ wrongLead f s := by
  by_cases hlead : n = 10 ∧ legalLead f (octetAt s 0) = false
  · obtain ⟨rfl, hl⟩ := hlead
    exact .inr ⟨rfl, h, hl⟩
  · exact .inl ⟨h, fun h₁₀ => by simpa [h₁₀] using hlead⟩

/-- Every input is accepted or has one of the three failures of a decode (R47, R67). -/
theorem decodeInput_cases (f : Form) (s : State) :
    (∃ n, Accepts f s n) ∨ ∃ c, DecodeFailure f s c := by
  rcases hasLength_or_unterminated s with ⟨n, hn⟩ | hC
  · exact (accepts_or_wrongLead f hn).imp (⟨n, ·⟩) fun h => ⟨.nonCanonicalMaxLength, h.2⟩
  · rcases (unterminated_iff s).mp hC with htrunc | hover
    · exact .inr ⟨.truncatedInput, htrunc⟩
    · exact .inr ⟨.overlong, hover⟩

/-- The registers the decode of a form starts from (R22, R64, R65). -/
def decodeStart (f : Form) (s : State) : State := startDecode (seedOf f (signIndicator (octetAt s 0))) s

/-- Octets are consumed into working registers alone. -/
theorem release_consumeMany (k : Nat) (s : State) : release (consumeMany k s) = release s := by
  induction k generalizing s with
  | zero => rfl
  | succ k ih => exact ih _

theorem release_consumeMany_start (seed : Word) (k : Nat) (s : State) :
    release (consumeMany k (startDecode seed s)) = release s := release_consumeMany k _

/-- The first octet consumed takes `LEAD`, whatever it held (R15). -/
theorem consumeMany_start_lead (seed : Word) (o : Octet) (s : State) (k : Nat) :
    consumeMany (k + 1) (startDecode seed { s with lead := o }) = consumeMany (k + 1) (startDecode seed s) := rfl

/-- The procedure of either form on a sequence (R62, R64, R65). -/
theorem decodeWhole_terminated {f : Form} {s : State} {n : Nat} (h : hasLength s n) :
    decodeWhole f s = .next (if n = 10 ∧ legalLead f (octetAt s 0) = false
      then failDecode .nonCanonicalMaxLength (consumeMany n (decodeStart f s))
      else completeDecode (consumeMany n (decodeStart f s))) := by
  cases f with
  | unsigned => exact decodeValue_terminated h
  | signed =>
    have ⟨h₁, _, hlen, _⟩ := h
    obtain ⟨m, rfl⟩ : ∃ m, n = m + 1 := ⟨n - 1, by omega⟩
    rw [decodeWhole, decodeSigned_nonempty (by omega), decodeValue_terminated (s := { s with lead := octetAt s 0 }) h,
      consumeMany_start_lead]
    rfl

/-- An accepted input ends in DONE, with all octets consumed (R62). -/
theorem decodeWhole_accepted {f : Form} {s : State} {n : Nat} (h : Accepts f s n) :
    decodeWhole f s = .next (completeDecode (consumeMany n (decodeStart f s))) := by
  rw [decodeWhole_terminated h.sequence, if_neg fun ⟨h₁₀, hl⟩ => by rw [h.lead h₁₀] at hl; cases hl]

/-- With no terminating octet the procedure of either form ends in FAILED, with only working registers written (R62). -/
theorem decodeWhole_unterminated (f : Form) {s : State} (hC : ∀ k < min 10 s.len, octetC (octetAt s k) = true) :
    ∃ u, decodeWhole f s = .next (failDecode (if min 10 s.len = 10 then .overlong else .truncatedInput) u) ∧
      release u = release s := by
  cases f with
  | unsigned => exact ⟨_, decodeValue_unterminated rfl hC, release_consumeMany_start _ _ _⟩
  | signed =>
    by_cases hlen : s.len = 0
    · exact ⟨s, by rw [decodeWhole, decodeSigned_empty hlen, hlen]; rfl, rfl⟩
    · rw [decodeWhole, decodeSigned_nonempty hlen]
      exact ⟨_, decodeValue_unterminated (s := { s with lead := octetAt s 0 }) rfl hC, release_consumeMany_start _ _ _⟩

/-- Every other input ends in FAILED, by the cause of its failure, with only working registers written (R62, R67). -/
theorem decodeWhole_failed {f : Form} {s : State} {c : Cause} (h : DecodeFailure f s c) :
    ∃ u, decodeWhole f s = .next (failDecode c u) ∧ release u = release s := by
  cases c with
  | truncatedInput =>
    have ⟨hlen, _⟩ := h
    have hrun := decodeWhole_unterminated f ((unterminated_iff s).mpr (.inl h))
    rwa [if_neg (by omega)] at hrun
  | overlong =>
    have ⟨hlen, _⟩ := h
    have hrun := decodeWhole_unterminated f ((unterminated_iff s).mpr (.inr h))
    rwa [if_pos (by omega)] at hrun
  | nonCanonicalMaxLength =>
    obtain ⟨hn, hlead⟩ := h
    refine ⟨consumeMany 10 (decodeStart f s), ?_, release_consumeMany_start _ _ _⟩
    rw [decodeWhole_terminated hn, if_pos ⟨rfl, hlead⟩]
  | insufficientBuffer => exact h.elim
  | noFailure => exact h.elim

/-- The value in `ACC` after the `n` octets of a sequence (R63). -/
def decodedWord (f : Form) (s : State) (n : Nat) : Word :=
  BitVec.ofNat 64 ((seedOf f (signIndicator (octetAt s 0))).toNat * 2 ^ (7 * n) + unsignedValue s n)

/-- The state after a decode that accepts `n` octets with a value (R62, R31). -/
def acceptedState (n : Nat) (v : Word) (s : State) : State :=
  { release s with count := BitVec.ofNat 4 n, valOut := v, cause := .noFailure }

/-- WHAT A DECODE ANSWERS on an accepted input: the whole next state. -/
theorem exec_decodeInstr_of_accepts {f : Form} {s : State} {n : Nat} (h : Accepts f s n) :
    exec (decodeInstr f) s = .next (acceptedState n (decodedWord f s n) s) := by
  have ⟨_, h₁₀, _⟩ := h.sequence
  have hacc : (consumeMany n (decodeStart f s)).acc = decodedWord f s n :=
    BitVec.eq_of_toNat_eq (by rw [decodedWord, BitVec.toNat_ofNat]; exact consumeMany_acc_toNat _ s h₁₀)
  have hcnt : (consumeMany n (decodeStart f s)).cnt = BitVec.ofNat 4 n := consumeMany_start_cnt _ s h₁₀
  have hrel : release (consumeMany n (decodeStart f s)) = release s := release_consumeMany_start _ _ _
  rw [exec_decodeInstr_eq_next (decodeWhole_accepted h), acceptedState, ← hacc, ← hcnt, ← hrel]
  rfl

/-- WHAT A DECODE ANSWERS on every other input: the failure entry, with the cause of its failure (R67, R70). -/
theorem exec_decodeInstr_failed {f : Form} {s : State} {c : Cause} (h : DecodeFailure f s c) :
    exec (decodeInstr f) s = .next (raise c (release s)) := by
  obtain ⟨u, hu, hrel⟩ := decodeWhole_failed h
  rw [exec_decodeInstr_eq_next hu, ← hrel]
  rfl

/-! ### Which inputs are accepted -/

theorem Accepts.of_short {f : Form} {s : State} {n : Nat} (h : hasLength s n) (hn : n ≤ 9) : Accepts f s n :=
  ⟨h, fun h₁₀ => by omega⟩

/-- `COUNT` after an accepted decode is the number of its octets. -/
theorem acceptedState_count_toNat {f : Form} {s : State} {n : Nat} (h : Accepts f s n) (v : Word) :
    (acceptedState n v s).count.toNat = n := by
  have ⟨_, h₁₀, _⟩ := h.sequence
  exact Nat.mod_eq_of_lt (by omega)

/-- At ten octets the lead alone decides (R46, R48). -/
theorem exec_decodeInstr_ten (f : Form) {s : State} (h : hasLength s 10) :
    ∃ t, exec (decodeInstr f) s = .next t ∧ (t.count.toNat = 10 ↔ legalLead f (octetAt s 0) = true) := by
  cases hlead : legalLead f (octetAt s 0) with
  | true => exact ⟨_, exec_decodeInstr_of_accepts ⟨h, fun _ => hlead⟩, iff_of_true rfl rfl⟩
  | false =>
    exact ⟨_, exec_decodeInstr_failed (c := .nonCanonicalMaxLength) ⟨h, hlead⟩, iff_of_false nofun nofun⟩

/-- Settles O23: below ten octets nothing but the length is asked for, at ten the lead as well. -/
theorem shortSequencesAreAccepted : Obligations.ShortSequencesAreAccepted := by
  intro s n hn
  constructor
  · intro h₉ f
    have hacc : Accepts f s n := .of_short hn h₉
    exact ⟨_, _, decodeWhole_accepted hacc, rfl, exec_decodeInstr_of_accepts hacc, acceptedState_count_toNat hacc _⟩
  · rintro rfl
    simp only [← legalLead_signed, ← legalLead_unsigned]
    exact ⟨exec_decodeInstr_ten .signed hn, exec_decodeInstr_ten .unsigned hn⟩

/-- No octet is a legal lead of both forms (R46, R49). -/
theorem legalLead_exclusive (o : Octet) : legalLead .unsigned o = false ∨ legalLead .signed o = false := by
  revert o; decide

/-- Settles O24: a value in nine octets is not negative as an unsigned one, and as a signed one exactly where the sign
indicator is 0; there the two are the same number. -/
theorem decodersDifferBySignIndicator : Obligations.DecodersDifferBySignIndicator := by
  intro s n hn
  have ⟨_, h₁₀, _⟩ := hn
  rcases Nat.lt_or_ge n 10 with h₉ | h₁₀'
  · obtain ⟨t, ht, -, hval, -⟩ := (decuReadsUnsignedValue s).1 n hn (by omega)
    obtain ⟨u, hu, -, hval', -⟩ := (decsReadsSignedValue s).1 n hn (by omega)
    refine ⟨t, u, ht, hu, fun _ => ?_, by omega⟩
    have hlt : unsignedValue s n < 2 ^ (7 * n) := unsignedValue_lt s n
    have hpow : 2 ^ (7 * n) ≤ 2 ^ 63 := Nat.pow_le_pow_right (by norm_num) (by omega)
    have htoInt : t.valOut.toInt = unsignedValue s n := by
      rw [BitVec.toInt_eq_toNat_of_lt (by omega), hval]
    rw [← BitVec.toInt_inj, htoInt, hval', signedValue]
    cases signIndicator (octetAt s 0) with
    | false => simp
    | true =>
      have hpos : (0 : Int) < 2 ^ (7 * n) := by positivity
      simp only [if_true, Bool.true_eq_false, iff_false]
      omega
  · obtain rfl : n = 10 := by omega
    obtain ⟨t, ht, hcount⟩ := exec_decodeInstr_count_eq_zero_iff .unsigned s
    obtain ⟨u, hu, hcount'⟩ := exec_decodeInstr_count_eq_zero_iff .signed s
    refine ⟨t, u, ht, hu, by omega, fun _ => ?_⟩
    exact (legalLead_exclusive (octetAt s 0)).imp (fun h => hcount.mpr (.inr (.inr (.inr ⟨hn, h⟩))))
      fun h => hcount'.mpr (.inr (.inr (.inr ⟨hn, h⟩)))

/-! ### What a decode reads -/

/-- A sequence is found in every buffer that has its octets in reach (R29, R49). -/
theorem hasLength_of_octets {s u : State} {n : Nat} (h : hasLength s n) (hlen : n ≤ u.len)
    (hoct : ∀ k, k < n → octetAt u k = octetAt s k) : hasLength u n := by
  obtain ⟨h₁, h₁₀, -, hC, hlast⟩ := h
  refine ⟨h₁, h₁₀, hlen, fun k hk => ?_, ?_⟩
  · rw [hoct k (by omega), hC k hk]
  · rw [hoct _ (by omega), hlast]

/-- The value of the octets read is that of the octets (R41, R63). -/
theorem decodedWord_congr (f : Form) {s u : State} {n : Nat} (h₁ : 1 ≤ n)
    (hoct : ∀ k, k < n → octetAt u k = octetAt s k) : decodedWord f u n = decodedWord f s n := by
  rw [decodedWord, decodedWord, hoct 0 h₁, unsignedValue_congr hoct]

/-- Settles O26: the same octets are accepted with the same value, or rejected for the same lead. -/
theorem decodeReadsOnlyItsOctets : Obligations.DecodeReadsOnlyItsOctets := by
  intro f s u n hn hlen hoct
  have hn' := hasLength_of_octets hn hlen hoct
  have ⟨h₁, _⟩ := hn
  rcases accepts_or_wrongLead f hn with hacc | ⟨rfl, hlead⟩
  · have hacc' : Accepts f u n := ⟨hn', by rw [hoct 0 h₁]; exact hacc.lead⟩
    exact ⟨_, _, exec_decodeInstr_of_accepts hacc, exec_decodeInstr_of_accepts hacc', rfl,
      fun _ => decodedWord_congr f h₁ hoct⟩
  · have hlead' : wrongLead f u := ⟨hn', by rw [hoct 0 h₁]; exact hlead.2⟩
    exact ⟨_, _, exec_decodeInstr_failed (c := .nonCanonicalMaxLength) hlead,
      exec_decodeInstr_failed (c := .nonCanonicalMaxLength) hlead', rfl, fun hne => absurd rfl hne⟩

/-! ### What a decode leaves alone -/

/-- Settles O25: by what every decode procedure keeps. -/
theorem decodeFrame : Obligations.DecodeFrame := by
  intro f s t h
  obtain ⟨u, hu, hkeep, -⟩ := decodeWhole_next f s
  cases (exec_decodeInstr_eq_next hu).symm.trans h
  exact ⟨hkeep.op, hkeep.valIn, hkeep.len, octetAt_congr hkeep.mem, u, hu, rfl, hkeep.n, hkeep.w, hkeep.idx,
    hkeep.encOct⟩

/-! ### The transitions of a decode -/

/-- The loop stops at the first terminal state, which the transitions reach from READING (R62). -/
theorem transitions_of_decodeLoop {f : Form} {k : Nat} {s t : State} (hst : s.st = .reading)
    (h : decodeLoop k f s = .next t) (ht : t.st ≠ .reading) :
    ∃ j, 1 ≤ j ∧ j ≤ k ∧ transitions j f s = .next t ∧
      ∀ i < j, ∃ u, transitions i f s = .next u ∧ u.st = .reading := by
  induction k generalizing s with
  | zero => cases h; exact absurd hst ht
  | succ k ih =>
    obtain ⟨v, hv⟩ : ∃ v, decodePass f s = .next v := ⟨_, decodePass_next f s⟩
    have hsucc (i : Nat) : transitions (i + 1) f s = transitions i f v := by rw [transitions, hv, andThen_next]
    rw [decodeLoop, if_pos hst, hv, andThen_next] at h
    by_cases hvst : v.st = .reading
    · obtain ⟨j, h₁, hk, hj, hbefore⟩ := ih hvst h
      refine ⟨j + 1, by omega, by omega, by rw [hsucc, hj], fun i hi => ?_⟩
      cases i with
      | zero => exact ⟨s, rfl, hst⟩
      | succ i => rw [hsucc]; exact hbefore i (by omega)
    · rw [decodeLoop_terminal k f hvst] at h
      refine ⟨1, le_rfl, by omega, by rw [hsucc]; exact h, fun i hi => ?_⟩
      obtain rfl : i = 0 := by omega
      exact ⟨s, rfl, hst⟩

/-- `DECODE` is at most eleven transitions, from READING to its answer (R62). -/
theorem decodeValue_reachedByTransitions (f : Form) (seed : Word) (s : State) :
    ∃ t, decodeValue f seed s = .next t ∧ reachedByTransitions f (startDecode seed s) (.next t) := by
  obtain ⟨t, ht, -, hst, -⟩ := decodeValue_next f seed s
  exact ⟨t, ht, transitions_of_decodeLoop rfl ht hst⟩

/-- Settles O33: each operation is `DECODE` from its seed, and releases what that answers. -/
theorem decodeIsItsTransitions : Obligations.DecodeIsItsTransitions := by
  intro s
  constructor
  · obtain ⟨t, ht, hreach⟩ := decodeValue_reachedByTransitions .unsigned 0 s
    exact ⟨t, hreach, exec_decodeInstr_eq_next (f := .unsigned) ht⟩
  · intro hlen
    obtain ⟨t, ht, hreach⟩ := decodeValue_reachedByTransitions .signed (signedSeed (signIndicator (octetAt s 0)))
      { s with lead := octetAt s 0 }
    exact ⟨t, hreach, exec_decodeInstr_eq_next (f := .signed) ((decodeSigned_nonempty hlen).trans ht)⟩

end Sys2Proof.Machine
end

section
/-! PROOFS of the family other, 4: the octet rows (rules R39 and R62). An octet row is the whole decode of the buffer
with that octet in front: after the first octet the loop reads none before offset 1. -/

namespace Sys2Proof.Machine

/-! ### A first octet in front of the buffer -/

/-- The state with another buffer of the same length. -/
def withMem (m : Memory) (s : State) : State := { s with mem := m }

theorem readingOctet_cnt (f : Form) (o : Octet) (s : State) : (readingOctet f o s).cnt = s.cnt + 1#4 := by
  rcases readingOctet_cases f o s with ⟨-, e⟩ | ⟨-, -, e⟩ | ⟨-, -, e⟩ <;> rw [e] <;> rfl

/-- What an octet read leads to does not depend on the buffer. -/
theorem readingOctet_withMem (f : Form) (o : Octet) (m : Memory) (s : State) :
    readingOctet f o (withMem m s) = withMem m (readingOctet f o s) := by
  rcases readingOctet_cases f o s with ⟨hC, e⟩ | ⟨hC, hlead, e⟩ | ⟨hC, hlead, e⟩ <;> rw [e]
  · rw [readingOctet_of_octetC f _ hC]; rfl
  · rw [readingOctet, hC, if_neg Bool.false_ne_true]; exact if_neg hlead
  · rw [readingOctet, hC, if_neg Bool.false_ne_true]; exact if_pos hlead

/-- The loop reads no octet before offset `CNT`, so it does the same on a buffer that agrees from there on (R62). -/
theorem decodeLoop_withMem (f : Form) (k : Nat) {s : State} {m : Memory} (hcnt : s.cnt.toNat ≤ 10)
    (h : ∀ a, s.cnt.toNat ≤ a → Memory.read m a = octetAt s a) :
    ∃ t, decodeLoop k f s = .next t ∧ decodeLoop k f (withMem m s) = .next (withMem m t) := by
  induction k generalizing s with
  | zero => exact ⟨s, rfl, rfl⟩
  | succ k ih =>
    by_cases hst : s.st = .reading
    · have hfail : readingFailure (withMem m s) = readingFailure s := rfl
      have hread : octetAt (withMem m s) (withMem m s).cnt.toNat = octetAt s s.cnt.toNat := h _ le_rfl
      rw [decodeLoop_reading k f hst, decodeLoop_reading k f (s := withMem m s) hst, hfail, hread,
        readingOctet_withMem]
      cases hf : readingFailure s with
      | some c => exact ih hcnt h
      | none =>
        have ⟨hne, _⟩ := readingFailure_none.mp hf
        have hsucc : (readingOctet f (octetAt s s.cnt.toNat) s).cnt.toNat = s.cnt.toNat + 1 := by
          rw [readingOctet_cnt]; bv_omega
        have hkeep := readingOctet_keeps f (octetAt s s.cnt.toNat) s
        refine ih (s := readingOctet f (octetAt s s.cnt.toNat) s) (by bv_omega) fun a ha => ?_
        rw [octetAt_congr hkeep.mem, h a (by omega)]
    · exact ⟨s, decodeLoop_terminal _ f hst, decodeLoop_terminal _ f hst⟩

theorem decodeFirst_empty (f : Form) (o : Octet) {s : State} (h : s.len = 0) :
    decodeFirst f o s = .next (failDecode .truncatedInput s) := by
  rw [decodeFirst, if_pos h]

theorem decodeFirst_nonempty (f : Form) (o : Octet) {s : State} (h : s.len ≠ 0) :
    decodeFirst f o s = decodeLoop 10 f (readingOctet f o (startDecode (seedOf f (signIndicator o)) s)) := by
  rw [decodeFirst, if_neg h]

/-- A whole decode is the decode from the octet at offset 0 (R62, R64, R65). -/
theorem decodeWhole_eq_decodeFirst (f : Form) {s : State} (h : s.len ≠ 0) :
    decodeWhole f s = decodeFirst f (octetAt s 0) s := by
  rw [decodeFirst_nonempty f _ h]
  cases f with
  | unsigned => exact decodeValue_first .unsigned 0 h
  | signed =>
    rw [decodeWhole, decodeSigned_nonempty h, decodeValue_first .signed _ (s := { s with lead := octetAt s 0 }) h]
    rfl

/-- THE DECODE FROM A GIVEN FIRST OCTET is the whole decode of the buffer with that octet at offset 0, but for the
buffer (log 1). -/
theorem decodeFirst_eq_decodeWhole (f : Form) (o : Octet) {s : State} (h : s.len ≠ 0) :
    ∃ t, decodeFirst f o s = .next t ∧
      decodeWhole f (withMem (Memory.write s.mem 0 o) s) = .next (withMem (Memory.write s.mem 0 o) t) := by
  have hfirst : octetAt (withMem (Memory.write s.mem 0 o) s) 0 = o := Memory.read_write_same s.mem 0 o
  have hcnt : (readingOctet f o (startDecode (seedOf f (signIndicator o)) s)).cnt = 1#4 := readingOctet_cnt ..
  have hkeep := readingOctet_keeps f o (startDecode (seedOf f (signIndicator o)) s)
  obtain ⟨t, ht, ht'⟩ := decodeLoop_withMem f 10 (m := Memory.write s.mem 0 o) (by rw [hcnt]; decide) fun a ha => by
    rw [hcnt] at ha
    rw [octetAt_congr hkeep.mem, octetAt_startDecode, Memory.read_write_other (Nat.ne_of_gt ha), octetAt]
  rw [← readingOctet_withMem] at ht'
  refine ⟨t, by rw [decodeFirst_nonempty f o h, ht], ?_⟩
  rw [decodeWhole_eq_decodeFirst f (s := withMem (Memory.write s.mem 0 o) s) h, hfirst,
    decodeFirst_nonempty f o (s := withMem (Memory.write s.mem 0 o) s) h]
  exact ht'

/-! ### The statements -/

/-- An octet row ends with the state its decode answers, released (R31). -/
theorem exec_decodeOctet_eq_next {o : Octet} {s t : State} (h : decodeFirst (formOf s.op) o s = .next t) :
    exec (decodeOctet o) s = .next (release t) := by
  rw [exec_decodeOctet, h, endOperation_next]

theorem exec_octetCont_eq_next {d : Group} {s t : State}
    (h : decodeFirst (formOf s.op) (octetOf true d) s = .next t) : exec (.octetCont d) s = .next (release t) := by
  rw [exec_octetCont, h, endOperation_next]

theorem exec_octetLast_eq_next {d : Group} {s t : State}
    (h : decodeFirst (formOf s.op) (octetOf false d) s = .next t) : exec (.octetLast d) s = .next (release t) := by
  rw [exec_octetLast, h, endOperation_next]

/-- Settles O31: with an octet to read by the decode of the buffer it stands in front of, with none by the failure of
both. -/
theorem octetRowIsItsDecode : Obligations.OctetRowIsItsDecode := by
  intro o s
  constructor
  · intro hlen
    obtain ⟨t, ht, ht'⟩ := decodeFirst_eq_decodeWhole (formOf s.op) o hlen
    obtain ⟨u, hu, hkeep, -⟩ := decodeFirst_next (formOf s.op) o s
    cases ht.symm.trans hu
    refine ⟨_, exec_decodeInstr_eq_next ht', ?_⟩
    rw [exec_decodeOctet_eq_next ht, ← hkeep.mem]
    rfl
  · intro hlen
    obtain ⟨v, hv, hrel⟩ := decodeWhole_failed (f := formOf s.op) (c := .truncatedInput)
      (truncatedInput_of_empty hlen)
    have hw := decodeFirst_empty (formOf s.op) o hlen
    refine ⟨raise .truncatedInput (release s), ?_, exec_decodeOctet_eq_next hw, rfl, _, _, hv, hw, rfl, rfl⟩
    rw [exec_decodeInstr_eq_next hv, ← hrel]
    rfl

/-- Settles O32: by what every decode keeps; with no octet to read it is the failure entry alone. -/
theorem octetFrame : Obligations.OctetFrame := by
  intro o s t h
  obtain ⟨u, hu, hkeep, -⟩ := decodeFirst_next (formOf s.op) o s
  cases (exec_decodeOctet_eq_next hu).symm.trans h
  refine ⟨hkeep.op, hkeep.valIn, hkeep.len, octetAt_congr hkeep.mem, u, hu, rfl, hkeep.n, hkeep.w, hkeep.idx,
    hkeep.encOct, fun hlen => ?_⟩
  cases (decodeFirst_empty (formOf s.op) o hlen).symm.trans hu
  exact ⟨rfl, rfl, rfl, rfl⟩

/-- A first octet with `C` = 0 is the whole of a decode (R62). -/
theorem decodeFirst_of_not_octetC (f : Form) {o : Octet} {s : State} (hC : octetC o = false) (h : s.len ≠ 0) :
    decodeFirst f o s =
      .next (completeDecode (consumeOctet o (startDecode (seedOf f (signIndicator o)) s))) := by
  have hshort : (startDecode (seedOf f (signIndicator o)) s).cnt.toNat + 1 < 10 := by simp
  rw [decodeFirst_nonempty f o h, readingOctet_of_legal hC (.inl hshort), decodeLoop_terminal _ _ (by simp)]

/-- One group accumulated onto the seed of its sign is the group extended in the form (R63, R65). -/
theorem accumulate_seedOf (f : Form) (c : Bool) (d : Group) :
    accumulate (seedOf f (signIndicator (octetOf c d))) d =
      (match f with
        | .unsigned => d.setWidth 64
        | .signed => d.signExtend 64) := by
  revert c d; cases f <;> decide

/-- Settles O29: the octet is consumed into DONE, and its group accumulated onto the seed is the group extended. -/
theorem octetLastIsAWholeSequence : Obligations.OctetLastIsAWholeSequence := by
  intro d s hlen
  have hrun := decodeFirst_of_not_octetC (formOf s.op) (octetC_octetOf false d) hlen
  have hnat : (octetOf false d).toNat = d.toNat := octetOf_toNat false d
  refine ⟨_, _, hrun, exec_octetLast_eq_next hrun, rfl, rfl, rfl, hnat, hnat, rfl, ?_⟩
  rw [release_valOut, completeDecode_valOut, consumeOctet_acc, startDecode_acc, octetD_octetOf]
  exact accumulate_seedOf (formOf s.op) false d

/-- The state a decode of an accepted buffer ends in, for the octet in front of it (R62). -/
theorem decodeFirst_of_accepts {f : Form} {o : Octet} {s : State} {n : Nat} (hlen : s.len ≠ 0)
    (h : Accepts f (withMem (Memory.write s.mem 0 o) s) n) :
    ∃ t, decodeFirst f o s = .next t ∧ t.st = .done ∧ t.lead = o ∧
      exec (decodeInstr f) (withMem (Memory.write s.mem 0 o) s) =
        .next (release (withMem (Memory.write s.mem 0 o) t)) := by
  obtain ⟨t, ht, ht'⟩ := decodeFirst_eq_decodeWhole f o hlen
  have hend := Host.Outcome.next.inj (ht'.symm.trans (decodeWhole_accepted h))
  have ⟨h₁, h₁₀, _⟩ := h.sequence
  have hlead : (withMem (Memory.write s.mem 0 o) t).lead = o := by
    rw [hend, completeDecode_lead]
    exact (consumeMany_lead rfl h₁ h₁₀).trans (Memory.read_write_same s.mem 0 o)
  exact ⟨t, ht, congrArg State.st hend, hlead, exec_decodeInstr_eq_next ht'⟩

/-- The state a decode of every other buffer ends in, for the octet in front of it (R62, R67). -/
theorem decodeFirst_failed {f : Form} {o : Octet} {s : State} {c : Cause} (hlen : s.len ≠ 0)
    (h : DecodeFailure f (withMem (Memory.write s.mem 0 o) s) c) :
    ∃ t, decodeFirst f o s = .next t ∧ t.st = .failed ∧ t.count = 0#4 := by
  obtain ⟨t, ht, ht'⟩ := decodeFirst_eq_decodeWhole f o hlen
  obtain ⟨u, hu, -⟩ := decodeWhole_failed h
  have hend : withMem (Memory.write s.mem 0 o) t = failDecode c u :=
    Host.Outcome.next.inj (ht'.symm.trans hu)
  exact ⟨t, ht, congrArg State.st hend, congrArg State.count hend⟩

/-- Settles O30: the buffer with the octet in front is accepted or has one of the failures, and its values are those of
the whole decodes. -/
theorem octetContBeginsSequence : Obligations.OctetContBeginsSequence := by
  rintro d s _ hlen rfl
  have hfirst : octetAt (withMem (Memory.write s.mem 0 (octetOf true d)) s) 0 = octetOf true d :=
    Memory.read_write_same s.mem 0 _
  refine ⟨fun n hn hlead => ?accepted, fun hn hlead => ?wrongLead, fun hC => ?unterminated⟩
  case accepted =>
    have hacc : Accepts (formOf s.op) (withMem (Memory.write s.mem 0 (octetOf true d)) s) n := ⟨hn, by rwa [hfirst]⟩
    obtain ⟨t, ht, hst, hoct, hexec⟩ := decodeFirst_of_accepts hlen hacc
    have hend := Host.Outcome.next.inj (hexec.symm.trans (exec_decodeInstr_of_accepts hacc))
    have hcount : t.count.toNat = n := by
      rw [← acceptedState_count_toNat hacc, ← hend]
      rfl
    refine ⟨t, _, ht, exec_octetCont_eq_next ht, rfl, hst, ?_, hcount, fun hf => ?_, fun hf => ?_⟩
    · rw [hoct, octetOf_toNat, if_pos rfl, Nat.add_comm]
    · rw [hf] at hexec hacc
      obtain ⟨v, hv, -, hval, -⟩ :=
        (decuReadsUnsignedValue _).1 n hn fun h₁₀ => (legalLead_unsigned _).mp (hacc.lead h₁₀)
      rw [← Host.Outcome.next.inj (hexec.symm.trans hv)] at hval
      exact hval
    · rw [hf] at hexec hacc
      obtain ⟨v, hv, -, hval, -⟩ :=
        (decsReadsSignedValue _).1 n hn fun h₁₀ => (legalLead_signed _).mp (hacc.lead h₁₀)
      rw [← Host.Outcome.next.inj (hexec.symm.trans hv)] at hval
      exact hval
  case wrongLead =>
    obtain ⟨t, ht, hst, hcount⟩ := decodeFirst_failed (f := formOf s.op) (c := .nonCanonicalMaxLength) hlen
      ⟨hn, by rwa [hfirst]⟩
    exact ⟨t, _, ht, exec_octetCont_eq_next ht, rfl, hst, hcount⟩
  case unterminated =>
    obtain ⟨t, ht, hst, hcount⟩ : ∃ t, decodeFirst (formOf s.op) (octetOf true d) s = .next t ∧ t.st = .failed ∧
        t.count = 0#4 := by
      rcases hC with hC | hC
      · exact decodeFirst_failed (c := .truncatedInput) hlen hC
      · exact decodeFirst_failed (c := .overlong) hlen hC
    exact ⟨t, _, ht, exec_octetCont_eq_next ht, rfl, hst, hcount⟩

end Sys2Proof.Machine
end

section
/-! PROOFS of the family other, 5: the value a form gives a word or a sequence, as one integer for both forms (rules
R8, R41 and R42). Shifting by seven divides it by 128, an octet more multiplies it by 128, and a size is the count after
which one group is left. -/

namespace Sys2Proof.Machine

/-! ### The value of a word -/

/-- The value a word stands for in a form (R3, R8). -/
def formValue : Form → Word → Int
  | .unsigned, w => w.toNat
  | .signed, w => w.toInt

theorem formValue_injective (f : Form) : Function.Injective (formValue f) := by
  intro v w h
  cases f with
  | unsigned => exact BitVec.eq_of_toNat_eq (Int.ofNat_inj.mp h)
  | signed => exact BitVec.toInt_inj.mp h

/-- A value that is not negative is the same in both forms. -/
theorem formValue_signed_of_nonneg {v : Word} (h : 0 ≤ v.toInt) : formValue .signed v = formValue .unsigned v := by
  have hlt := v.isLt
  have hcond := BitVec.toInt_eq_toNat_cond v
  rw [formValue, formValue]
  split at hcond <;> omega

/-- Shifts by seven divide by a power of 128, rounding down (R53). -/
theorem formValue_shiftGroup_iterate (f : Form) (j : Nat) (w : Word) :
    formValue f ((shiftGroup f)^[j] w) = formValue f w / 2 ^ (7 * j) := by
  cases f with
  | unsigned =>
    rw [shiftGroup_unsigned_iterate, formValue, BitVec.toNat_ushiftRight, Nat.shiftRight_eq_div_pow]
    push_cast
    rfl
  | signed => exact shiftGroup_signed_iterate_toInt j w

/-- The group taken from a word is its value modulo 128, in either form (R53). -/
theorem lowGroup_formValue (f : Form) (w : Word) : ((lowGroup w).toNat : Int) = formValue f w % 128 := by
  rw [lowGroup_toNat]
  cases f with
  | unsigned => exact Int.natCast_mod ..
  | signed =>
    rw [formValue, BitVec.toInt_eq_toNat_bmod, Int.bmod_def]
    split <;> omega

/-- The values that one group holds in a form: seven bits, or seven bits with a sign (R41, R42). -/
def FitsGroup : Form → Int → Prop
  | .unsigned, q => 0 ≤ q ∧ q < 128
  | .signed, q => -64 ≤ q ∧ q < 64

/-- A value that one group holds is known from its residue modulo 128. -/
theorem FitsGroup.eq_of_mod_eq {f : Form} {p q : Int} (hp : FitsGroup f p) (hq : FitsGroup f q)
    (h : p % 128 = q % 128) : p = q := by
  cases f <;> simp only [FitsGroup] at hp hq <;> omega

/-- `n`+1 octets are enough for a value exactly where `n` groups taken away leave one (R55, R56). -/
theorem size_le_succ_iff (f : Form) (v : Word) (n : Nat) :
    size f v ≤ n + 1 ↔ FitsGroup f (formValue f v / 2 ^ (7 * n)) := by
  have hpos : (0 : Int) < 2 ^ (7 * n) := by positivity
  cases f with
  | unsigned =>
    have hlow : 0 ≤ formValue .unsigned v / 2 ^ (7 * n) := Int.ediv_nonneg (Int.natCast_nonneg _) hpos.le
    rw [size, usize_le_iff v (by omega), FitsGroup, and_iff_right hlow, Int.ediv_lt_iff_lt_mul hpos, formValue,
      show 7 * (n + 1) = 7 + 7 * n by ring, pow_add, ← Int.ofNat_lt]
    push_cast
    norm_num
  | signed =>
    rw [size, ssize_le_iff v (by omega), FitsGroup, Int.le_ediv_iff_mul_le hpos, Int.ediv_lt_iff_lt_mul hpos, formValue,
      show 7 * (n + 1) - 1 = 6 + 7 * n by omega, pow_add]
    norm_num

/-! ### The value of a sequence -/

/-- The value of the first `n` octets in a form (R41, R42). -/
def sequenceValue : Form → State → Nat → Int
  | .unsigned, s, n => unsignedValue s n
  | .signed, s, n => signedValue s n

/-- One more octet: the value so far times 128, and its digit. -/
theorem sequenceValue_succ (f : Form) (s : State) (n : Nat) :
    sequenceValue f s (n + 1) = sequenceValue f s n * 128 + digitAt s n := by
  cases f with
  | unsigned =>
    rw [sequenceValue, unsignedValue_succ]
    push_cast
    rfl
  | signed =>
    rw [sequenceValue, sequenceValue, signedValue, signedValue, unsignedValue_succ,
      show 7 * (n + 1) = 7 * n + 7 by ring, pow_add]
    push_cast
    split <;> ring

/-- The octets after the first `n` are the digits that division takes away. -/
theorem sequenceValue_ediv (f : Form) (s : State) (n j : Nat) :
    sequenceValue f s (n + j) / 2 ^ (7 * j) = sequenceValue f s n := by
  induction j with
  | zero => simp
  | succ j ih =>
    have hd := digitAt_lt s (n + j)
    have hstep : sequenceValue f s (n + (j + 1)) / 2 ^ 7 = sequenceValue f s (n + j) := by
      rw [← Nat.add_assoc, sequenceValue_succ]
      omega
    rw [show 7 * (j + 1) = 7 + 7 * j by ring, pow_add, ← Int.ediv_ediv_of_nonneg (by norm_num), hstep, ih]

/-- The first octet of a sequence is one group, with its sign in the signed form (R42). -/
theorem fitsGroup_sequenceValue_one (f : Form) (s : State) : FitsGroup f (sequenceValue f s 1) := by
  have hd := digitAt_lt s 0
  cases f with
  | unsigned =>
    have hone : unsignedValue s 1 = digitAt s 0 := by simp [unsignedValue_succ]
    rw [sequenceValue, FitsGroup, hone]
    omega
  | signed =>
    obtain ⟨hlow, hhigh⟩ := signedValue_first_digit s 0
    have hmin := BitVec.le_toInt (octetD (octetAt s 0))
    have hmax := BitVec.toInt_lt (x := octetD (octetAt s 0))
    rw [sequenceValue, FitsGroup]
    norm_num at hlow hhigh hmin hmax
    omega

/-- A word with the value of a sequence needs no more octets than the sequence has (R66). -/
theorem size_le_of_sequenceValue {f : Form} {s : State} {n : Nat} {v : Word} (hn : 1 ≤ n)
    (h : formValue f v = sequenceValue f s n) : size f v ≤ n := by
  obtain ⟨m, rfl⟩ : ∃ m, n = 1 + m := ⟨n - 1, by omega⟩
  rw [Nat.add_comm, size_le_succ_iff, h, sequenceValue_ediv]
  exact fitsGroup_sequenceValue_one f s

/-- What an accepted decode answers has the value of its octets, in either form (R64, R65). -/
theorem formValue_decodedWord {f : Form} {s : State} {n : Nat} (h : Accepts f s n) :
    formValue f (decodedWord f s n) = sequenceValue f s n := by
  have hexec := exec_decodeInstr_of_accepts h
  cases f with
  | unsigned =>
    obtain ⟨t, ht, -, hval, -⟩ :=
      (decuReadsUnsignedValue s).1 n h.sequence fun hn => (legalLead_unsigned _).mp (h.lead hn)
    rw [← Host.Outcome.next.inj (hexec.symm.trans ht)] at hval
    exact congrArg Int.ofNat hval
  | signed =>
    obtain ⟨t, ht, -, hval, -⟩ :=
      (decsReadsSignedValue s).1 n h.sequence fun hn => (legalLead_signed _).mp (h.lead hn)
    rw [← Host.Outcome.next.inj (hexec.symm.trans ht)] at hval
    exact hval

/-- A decode with `COUNT` > 0 is of an accepted input (R47). -/
theorem accepts_of_count_ne_zero {f : Form} {s t : State} (h : exec (decodeInstr f) s = .next t) (hne : t.count ≠ 0#4) :
    ∃ n, Accepts f s n ∧ t.count.toNat = n ∧ t.valOut = decodedWord f s n := by
  rcases decodeInput_cases f s with ⟨n, hacc⟩ | ⟨c, hfail⟩
  · cases (exec_decodeInstr_of_accepts hacc).symm.trans h
    exact ⟨n, hacc, acceptedState_count_toNat hacc _, rfl⟩
  · cases (exec_decodeInstr_failed hfail).symm.trans h
    exact absurd rfl hne

/-- Settles O36: the value answered is that of the octets, which `COUNT` octets hold. -/
theorem reencodingIsNeverLonger : Obligations.ReencodingIsNeverLonger := by
  intro f s t h hne
  obtain ⟨n, hacc, hcount, hval⟩ := accepts_of_count_ne_zero h hne
  rw [hcount, hval]
  exact size_le_of_sequenceValue hacc.sequence.1 (formValue_decodedWord hacc)

end Sys2Proof.Machine
end

section
/-! PROOFS of the family other, 6: the encoders, and encode and decode together (rules R44, R45, R57 and R61). What
either encoder leaves in the buffer is one predicate, `Canonical`: a sequence whose digits are those of the value. The
lengths, the first octets, the round trips and the uniqueness of the encoding follow from it. -/

namespace Sys2Proof.Machine

/-! ### The canonical encoding -/

/-- The buffer begins with the canonical encoding of a value in a form: a sequence of as many octets as its size, whose
digits are those of the value in base 128 (R44, R45, R57). -/
structure Canonical (f : Form) (v : Word) (s : State) : Prop where
  sequence : hasLength s (size f v)
  digit : ∀ k < size f v, (digitAt s k : Int) = formValue f v / 2 ^ (7 * (size f v - 1 - k)) % 128

/-- THE LOOP OF R57 with room, in terms of the value: it leaves the canonical encoding, the rest of the buffer, and what
is left of the value in `W`. -/
theorem encodeLoop_canonical {f : Form} {s : State} (h : size f s.valIn ≤ s.len) :
    ∃ u, encodeLoop (size f s.valIn) f (startEncode f s) = .next u ∧ LoopKeeps (startEncode f s) u ∧ u.idx = 0#4 ∧
      formValue f u.w = formValue f s.valIn / 2 ^ (7 * size f s.valIn) ∧ Canonical f s.valIn u ∧
      ∀ a, size f s.valIn ≤ a → octetAt u a = octetAt s a := by
  obtain ⟨u, hu, hkeep, hidx, hw, hoct, -, -⟩ := encodeLoop_next f (size f s.valIn) (startEncode f s) (size_toNat f _) h
  have hstored : ∀ k < size f s.valIn, octetAt u k = octetOf (decide (k + 1 ≠ size f s.valIn))
      (lowGroup ((shiftGroup f)^[size f s.valIn - 1 - k] s.valIn)) := fun k hk => by
    rw [hoct, if_pos hk, loopOctet, startEncode_n, size_toNat, startEncode_w]
  have hpos := size_pos f s.valIn
  refine ⟨u, hu, hkeep, hidx, ?_, ⟨⟨hpos, size_le f _, ?_, fun k hk => ?_, ?_⟩, fun k hk => ?_⟩, fun a ha => ?_⟩
  · rw [hw, formValue_shiftGroup_iterate, startEncode_w]
  · rw [hkeep.len]; exact h
  · rw [hstored k (by omega), octetC_octetOf]; exact decide_eq_true (by omega)
  · rw [hstored _ (by omega), octetC_octetOf]; exact decide_eq_false (by omega)
  · rw [digitAt, hstored k hk, octetD_octetOf, lowGroup_formValue, formValue_shiftGroup_iterate]
  · rw [hoct, if_neg (Nat.not_lt.mpr ha)]; rfl

/-- With room, an encode operation is the return of its loop, released (R57, R31). -/
theorem exec_encodeInstr_of_loop {f : Form} {s u : State} (h : size f s.valIn ≤ s.len)
    (hu : encodeLoop (size f s.valIn) f (startEncode f s) = .next u) :
    exec (encodeInstr f) s = .next (release (returnEncode u)) := by
  rw [exec_encodeInstr, encodeValue, if_neg (Nat.not_lt.mpr h), hu, andThen_next, endOperation_next]

/-- WHAT AN ENCODE ANSWERS with room: `COUNT` is the size, the buffer begins with the canonical encoding, and the rest
of it is as before (R57). -/
theorem exec_encodeInstr_canonical {f : Form} {s : State} (h : size f s.valIn ≤ s.len) :
    ∃ t, exec (encodeInstr f) s = .next t ∧ t.valIn = s.valIn ∧ t.count = BitVec.ofNat 4 (size f s.valIn) ∧
      Canonical f s.valIn t ∧ ∀ a, size f s.valIn ≤ a → octetAt t a = octetAt s a := by
  obtain ⟨u, hu, hkeep, -, -, ⟨hseq, hdigit⟩, hrest⟩ := encodeLoop_canonical h
  exact ⟨_, exec_encodeInstr_of_loop h hu, hkeep.valIn, hkeep.n, ⟨hseq, hdigit⟩, hrest⟩

/-- An octet is its group, and 128 more with `C` set (R39). -/
theorem octet_toNat (o : Octet) : o.toNat = (octetD o).toNat + if octetC o then 128 else 0 := by
  conv_lhs => rw [← octetOf_fields o, octetOf_toNat]

/-- The continuation bits of a sequence (R40). -/
theorem octetC_octetAt_of_hasLength {s : State} {n : Nat} (h : hasLength s n) {k : Nat} (hk : k < n) :
    octetC (octetAt s k) = decide (k + 1 < n) := by
  obtain ⟨-, -, -, hC, hlast⟩ := h
  rcases Nat.lt_or_ge (k + 1) n with hlt | hge
  · rw [hC k (by omega), decide_eq_true hlt]
  · obtain rfl : k = n - 1 := by omega
    rw [hlast, decide_eq_false (by omega)]

/-- An octet of a sequence of `n` is known from its digit. -/
theorem octetAt_toNat {s : State} {n k : Nat} (h : hasLength s n) (hk : k < n) :
    (octetAt s k).toNat = digitAt s k + if k + 1 < n then 128 else 0 := by
  rw [octet_toNat, octetC_octetAt_of_hasLength h hk, digitAt]
  simp only [decide_eq_true_eq]

/-- Two sequences of one length have the same octets where they have the same digits. -/
theorem octetAt_eq_of_digitAt_eq {s u : State} {n k : Nat} (hs : hasLength s n) (hu : hasLength u n) (hk : k < n)
    (h : digitAt u k = digitAt s k) : octetAt u k = octetAt s k :=
  BitVec.eq_of_toNat_eq (by rw [octetAt_toNat hu hk, octetAt_toNat hs hk, h])

/-! ### The first groups of a value -/

/-- What the groups after the first leave of a value: the first group, extended in the form (R57). -/
def firstGroup (f : Form) (v : Word) : Int := formValue f v / 2 ^ (7 * (size f v - 1))

/-- What the groups after the second leave of a value. -/
def firstTwoGroups (f : Form) (v : Word) : Int := formValue f v / 2 ^ (7 * (size f v - 2))

theorem fitsGroup_firstGroup (f : Form) (v : Word) : FitsGroup f (firstGroup f v) := by
  have hpos := size_pos f v
  exact (size_le_succ_iff f v _).mp (by omega)

/-- Since the size is the least, two groups are not one (R55, R56). -/
theorem not_fitsGroup_firstTwoGroups {f : Form} {v : Word} (h : 2 ≤ size f v) : ¬FitsGroup f (firstTwoGroups f v) :=
  fun hfits => by
    have hle := (size_le_succ_iff f v _).mpr hfits
    omega

/-- Seven bits more divide once more by 128. -/
theorem ediv_two_pow_succ (x : Int) (j : Nat) : x / 2 ^ (7 * (j + 1)) = x / 2 ^ (7 * j) / 128 := by
  rw [show 7 * (j + 1) = 7 * j + 7 by ring, pow_add, ← Int.ediv_ediv_of_nonneg (by positivity)]
  norm_num

theorem firstTwoGroups_ediv {f : Form} {v : Word} (h : 2 ≤ size f v) : firstTwoGroups f v / 128 = firstGroup f v := by
  rw [firstTwoGroups, firstGroup, ← ediv_two_pow_succ]
  congr 3
  omega

/-- The sign of the first group is that of the value. -/
theorem firstGroup_neg_iff (f : Form) (v : Word) : firstGroup f v < 0 ↔ formValue f v < 0 := by
  rw [firstGroup, Int.ediv_lt_iff_lt_mul (by positivity), zero_mul]

theorem formValue_unsigned_nonneg (v : Word) : 0 ≤ formValue .unsigned v := Int.natCast_nonneg _

/-- All groups taken away leave the sign alone (R57). -/
theorem formValue_ediv_size (f : Form) (v : Word) :
    formValue f v / 2 ^ (7 * size f v) = if formValue f v < 0 then -1 else 0 := by
  have hpos := size_pos f v
  have hfits := fitsGroup_firstGroup f v
  have hsign := firstGroup_neg_iff f v
  have hfirst : formValue f v / 2 ^ (7 * size f v) = firstGroup f v / 128 := by
    rw [firstGroup, ← ediv_two_pow_succ, Nat.sub_add_cancel hpos]
  rw [hfirst]
  cases f <;> simp only [FitsGroup] at hfits <;> split <;> omega

/-- An unsigned value of two octets or more begins with a group that is not 0 (R44). -/
theorem firstGroup_unsigned_pos {v : Word} (h : 2 ≤ usize v) : 1 ≤ firstGroup .unsigned v := by
  have hnot := not_fitsGroup_firstTwoGroups (f := .unsigned) h
  have hdiv := firstTwoGroups_ediv (f := .unsigned) h
  have hfits := fitsGroup_firstGroup .unsigned v
  simp only [FitsGroup] at hnot hfits
  omega

/-- Ten unsigned octets begin with bit 63 of the value, which is set (R46). -/
theorem firstGroup_unsigned_ten {v : Word} (h : usize v = 10) : firstGroup .unsigned v = 1 := by
  have hpos := firstGroup_unsigned_pos (v := v) (by omega)
  have hlt := v.isLt
  rw [firstGroup, size, h, formValue] at hpos ⊢
  omega

/-- Ten signed octets begin with the sign of the value (R46). -/
theorem firstGroup_signed_ten {v : Word} (h : ssize v = 10) : firstGroup .signed v = if v.toInt < 0 then -1 else 0 := by
  have hlow := v.le_toInt
  have hhigh := v.toInt_lt
  rw [firstGroup, size, h, formValue]
  split <;> omega

theorem Canonical.first_digit {f : Form} {v : Word} {s : State} (h : Canonical f v s) :
    (digitAt s 0 : Int) = firstGroup f v % 128 :=
  h.digit 0 (size_pos f v)

theorem Canonical.second_digit {f : Form} {v : Word} {s : State} (h : Canonical f v s) (h₂ : 2 ≤ size f v) :
    (digitAt s 1 : Int) = firstTwoGroups f v % 128 :=
  h.digit 1 h₂

theorem Canonical.octetAt_zero_toNat {f : Form} {v : Word} {s : State} (h : Canonical f v s) :
    (octetAt s 0).toNat = digitAt s 0 + if 2 ≤ size f v then 128 else 0 :=
  octetAt_toNat h.sequence (size_pos f v)

/-- Ten octets of `ENCU` begin with 0x81 (R44, R46). -/
theorem Canonical.octetAt_zero_unsigned_ten {v : Word} {s : State} (h : Canonical .unsigned v s) (h₁₀ : usize v = 10) :
    octetAt s 0 = 0x81#8 := by
  have hdigit := h.first_digit
  have hoct := h.octetAt_zero_toNat
  rw [firstGroup_unsigned_ten h₁₀] at hdigit
  rw [size, if_pos (by omega)] at hoct
  exact BitVec.eq_of_toNat_eq (by rw [hoct, BitVec.toNat_ofNat]; omega)

/-- Ten octets of `ENCS` begin with 0xff or 0x80, by the sign (R45, R46). -/
theorem Canonical.octetAt_zero_signed_ten {v : Word} {s : State} (h : Canonical .signed v s) (h₁₀ : ssize v = 10) :
    octetAt s 0 = if v.toInt < 0 then 0xff#8 else 0x80#8 := by
  have hdigit := h.first_digit
  have hoct := h.octetAt_zero_toNat
  rw [firstGroup_signed_ten h₁₀] at hdigit
  rw [size, if_pos (by omega)] at hoct
  split at hdigit
  · next hneg => exact BitVec.eq_of_toNat_eq (by rw [hoct, if_pos hneg, BitVec.toNat_ofNat]; omega)
  · next hneg => exact BitVec.eq_of_toNat_eq (by rw [hoct, if_neg hneg, BitVec.toNat_ofNat]; omega)

/-- The sign indicator of `ENCS` is the sign of the value (R42, R60). -/
theorem Canonical.signIndicator_iff {v : Word} {s : State} (h : Canonical .signed v s) :
    signIndicator (octetAt s 0) = true ↔ v.toInt < 0 := by
  have hfits := fitsGroup_firstGroup .signed v
  have hdigit := h.first_digit
  have hsign : firstGroup .signed v < 0 ↔ v.toInt < 0 := firstGroup_neg_iff .signed v
  rw [signIndicator_eq, decide_eq_true_iff, ← hsign]
  simp only [FitsGroup, digitAt] at hfits hdigit
  omega

/-! ### What the encoders end with -/

/-- Settles O14: the end of the loop by what all groups leave of the value, the first octet by the first group. -/
theorem encoderEndState : Obligations.EncoderEndState := by
  intro s
  refine ⟨fun hroom => ?unsigned, fun hroom => ?signed⟩
  case unsigned =>
    obtain ⟨u, hu, hkeep, hidx, hw, hcanon, -⟩ := encodeLoop_canonical (f := .unsigned) hroom
    have hn : u.n.toNat = usize s.valIn := by rw [hkeep.n]; exact size_toNat .unsigned _
    refine ⟨u, _, hu, exec_encodeInstr_of_loop (f := .unsigned) hroom hu, rfl, rfl, ?_, hidx, hn,
      hcanon.octetAt_zero_unsigned_ten, fun h₂ hzero => ?_⟩
    · rw [formValue_ediv_size, if_neg (formValue_unsigned_nonneg _).not_gt] at hw
      exact formValue_injective .unsigned hw
    · have hpos := firstGroup_unsigned_pos h₂
      have hfits := fitsGroup_firstGroup .unsigned s.valIn
      have hdigit := hcanon.first_digit
      have hzero : octetD (octetAt u 0) = 0#7 := hzero
      rw [digitAt, hzero, BitVec.toNat_ofNat] at hdigit
      simp only [FitsGroup] at hfits
      omega
  case signed =>
    obtain ⟨u, hu, hkeep, hidx, hw, hcanon, -⟩ := encodeLoop_canonical (f := .signed) hroom
    have hn : u.n.toNat = ssize s.valIn := by rw [hkeep.n]; exact size_toNat .signed _
    refine ⟨u, _, hu, exec_encodeInstr_of_loop (f := .signed) hroom hu, rfl, rfl, ?_, hidx, hn,
      hcanon.octetAt_zero_signed_ten, hcanon.signIndicator_iff⟩
    rw [formValue_ediv_size] at hw
    refine formValue_injective .signed (hw.trans ?_)
    rw [formValue]
    split <;> rfl

/-- Settles O15: a failed encode writes `N` and the outputs, a successful one the octets below its size. -/
theorem encodeFrame : Obligations.EncodeFrame := by
  intro f s t h
  rw [exec_encodeInstr] at h
  obtain ⟨u, hu, rfl⟩ := endOperation_eq_next h
  rcases Nat.lt_or_ge s.len (size f s.valIn) with hroom | hroom
  · cases (encodeValue_failed hroom).symm.trans hu
    exact ⟨rfl, rfl, rfl, fun _ _ => rfl, _, hu, rfl, rfl, rfl, rfl, rfl, rfl, fun _ => ⟨rfl, rfl, rfl⟩⟩
  · obtain ⟨v, hv, hkeep, -, -, -, -, -, hoct, -⟩ := encodeValue_next hroom
    cases hv.symm.trans hu
    refine ⟨hkeep.op, hkeep.valIn, hkeep.len, fun a ha => ?_, _, hu, rfl, hkeep.acc, hkeep.cnt, hkeep.st, hkeep.decOct,
      hkeep.lead, fun hlt => absurd hroom (Nat.not_le.mpr hlt)⟩
    rw [octetAt_release, hoct, if_neg fun hlt => ha ⟨hlt, hroom⟩]

/-- Settles O17: the range by the size, the first octet by the first group. -/
theorem unsignedLengths : Obligations.UnsignedLengths := by
  intro s hroom
  obtain ⟨t, ht, hval, hcount, hcanon, -⟩ := exec_encodeInstr_canonical (f := .unsigned) hroom
  refine ⟨t, ht, hval, fun n hn => ?_⟩
  rw [hcount, size_toNat, size] at hn
  have hpos := size_pos .unsigned s.valIn
  have hoct := hcanon.octetAt_zero_toNat
  have hdigit := hcanon.first_digit
  have hfits := fitsGroup_firstGroup .unsigned s.valIn
  simp only [FitsGroup] at hfits
  rw [size, hn] at hpos hoct
  refine ⟨(usize_le_iff _ hpos).mp hn.le, fun h₂ => ?_, fun h₁ => ?_, fun h₂ => ?_, fun h₁₀ => ?_⟩
  · by_contra hlt
    have hle := (usize_le_iff s.valIn (n := n - 1) (by omega)).mpr (by omega)
    omega
  · rw [hoct, if_neg (by omega)]
    omega
  · have hfirst := firstGroup_unsigned_pos (v := s.valIn) (by omega)
    rw [hoct, if_pos h₂]
    omega
  · exact hcanon.octetAt_zero_unsigned_ten (hn.trans h₁₀)

/-- Settles O18: the range by the size; a first group that only repeats the sign would leave two groups in one. -/
theorem signedLengths : Obligations.SignedLengths := by
  intro s hroom
  obtain ⟨t, ht, -, hcount, hcanon, -⟩ := exec_encodeInstr_canonical (f := .signed) hroom
  refine ⟨t, ht, fun n hn => ?_⟩
  rw [hcount, size_toNat, size] at hn
  have hpos := size_pos .signed s.valIn
  rw [size, hn] at hpos
  obtain ⟨hlow, hhigh⟩ := (ssize_le_iff s.valIn hpos).mp hn.le
  refine ⟨hlow, hhigh, fun h₂ => ?_, fun h₂ => ?_⟩
  · by_contra hrange
    rw [not_or, Int.not_lt, Int.not_le] at hrange
    have hle := (ssize_le_iff s.valIn (n := n - 1) (by omega)).mpr hrange
    omega
  · have hsize : 2 ≤ size .signed s.valIn := by rw [size, hn]; exact h₂
    have hfirst := hcanon.first_digit
    have hsecond := hcanon.second_digit hsize
    have hnot := not_fitsGroup_firstTwoGroups hsize
    have hfits := fitsGroup_firstGroup .signed s.valIn
    have hdiv := firstTwoGroups_ediv hsize
    simp only [FitsGroup, digitAt] at hfirst hsecond hnot hfits
    simp only [signIndicator_eq, decide_eq_false_iff_not, decide_eq_true_eq]
    refine ⟨fun ⟨hzero, hsign⟩ => hnot ?_, fun ⟨hones, hsign⟩ => hnot ?_⟩
    · rw [hzero, BitVec.toNat_ofNat] at hfirst
      omega
    · rw [hones, BitVec.toNat_ofNat] at hfirst
      omega

/-- Settles O19: a value that is not negative has the same digits in both forms; with no room neither writes. -/
theorem encodersAgreeWhenSizesAgree : Obligations.EncodersAgreeWhenSizesAgree := by
  intro s hnonneg hsize
  have hsize' : size .signed s.valIn = size .unsigned s.valIn := hsize.symm
  have hvalue := formValue_signed_of_nonneg hnonneg
  rcases Nat.lt_or_ge s.len (usize s.valIn) with hroom | hroom
  · obtain ⟨t, ht, hcount, -, hmem⟩ := exec_encodeInstr_failed (f := .unsigned) hroom
    obtain ⟨u, hu, hcount', -, hmem'⟩ := exec_encodeInstr_failed (f := .signed) (hsize ▸ hroom)
    exact ⟨t, u, ht, hu, hcount.trans hcount'.symm, octetAt_congr (hmem.trans hmem'.symm)⟩
  · obtain ⟨t, ht, -, hcount, hcanon, hrest⟩ := exec_encodeInstr_canonical (f := .unsigned) hroom
    obtain ⟨u, hu, -, hcount', ⟨hseq', hdigit'⟩, hrest'⟩ := exec_encodeInstr_canonical (f := .signed)
      (hsize ▸ hroom)
    rw [hsize'] at hcount' hseq' hdigit' hrest'
    refine ⟨t, u, ht, hu, hcount.trans hcount'.symm, fun a => ?_⟩
    rcases Nat.lt_or_ge a (size .unsigned s.valIn) with ha | ha
    · refine octetAt_eq_of_digitAt_eq hseq' hcanon.sequence ha ?_
      have hdigits := (hcanon.digit a ha).trans (hvalue ▸ (hdigit' a ha).symm)
      exact Int.ofNat_inj.mp hdigits
    · rw [hrest a ha, hrest' a ha]

/-! ### Encode and decode together -/

/-- The digits of a canonical encoding add up to the value: each octet more gives back the group a shift took away
(R43, R61). -/
theorem Canonical.sequenceValue_succ_eq {f : Form} {v : Word} {s : State} (h : Canonical f v s) (k : Nat)
    (hk : k < size f v) : sequenceValue f s (k + 1) = formValue f v / 2 ^ (7 * (size f v - 1 - k)) := by
  induction k with
  | zero =>
    have hlt := digitAt_lt s 0
    have hmod : sequenceValue f s 1 % 128 = firstGroup f v % 128 := by
      rw [← h.first_digit, sequenceValue_succ]
      omega
    exact (fitsGroup_sequenceValue_one f s).eq_of_mod_eq (fitsGroup_firstGroup f v) hmod
  | succ k ih =>
    have hdigit := h.digit (k + 1) hk
    rw [sequenceValue_succ, ih (by omega), show size f v - 1 - k = (size f v - 1 - (k + 1)) + 1 by omega,
      ediv_two_pow_succ]
    omega

theorem Canonical.sequenceValue_eq {f : Form} {v : Word} {s : State} (h : Canonical f v s) :
    sequenceValue f s (size f v) = formValue f v := by
  have hpos := size_pos f v
  have hlast := h.sequenceValue_succ_eq (size f v - 1) (by omega)
  rwa [Nat.sub_add_cancel hpos, Nat.sub_self, Nat.mul_zero, pow_zero, Int.ediv_one] at hlast

/-- A decoder accepts every canonical encoding of its form (R46, R61). -/
theorem Canonical.accepts {f : Form} {v : Word} {s : State} (h : Canonical f v s) : Accepts f s (size f v) := by
  refine ⟨h.sequence, fun h₁₀ => ?_⟩
  cases f with
  | unsigned => exact (legalLead_unsigned _).mpr (h.octetAt_zero_unsigned_ten h₁₀)
  | signed =>
    rw [legalLead_signed, h.octetAt_zero_signed_ten h₁₀]
    split
    · exact .inr rfl
    · exact .inl rfl

/-- THE ROUND TRIP, in either form (R61, R66). -/
theorem exec_decodeInstr_exec_encodeInstr (f : Form) {s : State} (h : size f s.valIn ≤ s.len) :
    ∃ t u, exec (encodeInstr f) s = .next t ∧ exec (decodeInstr f) t = .next u ∧ u.valOut = s.valIn ∧
      u.count = t.count ∧ u.count.toNat = size f s.valIn ∧ u.mem = t.mem := by
  obtain ⟨t, ht, -, hcount, hcanon, -⟩ := exec_encodeInstr_canonical h
  have hval : decodedWord f t (size f s.valIn) = s.valIn :=
    formValue_injective f ((formValue_decodedWord hcanon.accepts).trans hcanon.sequenceValue_eq)
  exact ⟨t, _, ht, exec_decodeInstr_of_accepts hcanon.accepts, hval, hcount.symm,
    acceptedState_count_toNat hcanon.accepts _, rfl⟩

/-- Settles O34: the round trip of the unsigned form. -/
theorem roundTripUnsigned : Obligations.RoundTripUnsigned := fun _ => exec_decodeInstr_exec_encodeInstr .unsigned

/-- Settles O35: the round trip of the signed form. -/
theorem roundTripSigned : Obligations.RoundTripSigned := fun _ => exec_decodeInstr_exec_encodeInstr .signed

/-- Settles O37: the octets of the sequence are the digits of its value, as those of the encoding are. -/
theorem canonicalEncodingIsUnique : Obligations.CanonicalEncodingIsUnique := by
  intro f s t u h hne hsize hval hroom
  obtain ⟨n, hacc, hcount, hdec⟩ := accepts_of_count_ne_zero h hne
  obtain ⟨v, hv, -, hcount', hcanon, -⟩ := exec_encodeInstr_canonical hroom
  have hn : size f u.valIn = n := by rw [hval, hsize, hcount]
  have hvalue : formValue f u.valIn = sequenceValue f s n := by rw [hval, hdec, formValue_decodedWord hacc]
  obtain ⟨hseq, hdigit⟩ := hcanon
  rw [hn] at hseq hdigit hcount'
  refine ⟨v, hv, BitVec.eq_of_toNat_eq ?_, fun k hk => ?_⟩
  · rw [hcount', ← hn, size_toNat, hn, hcount]
  · rw [hcount] at hk
    refine octetAt_eq_of_digitAt_eq hacc.sequence hseq hk (Int.ofNat_inj.mp ?_)
    have hfront := sequenceValue_ediv f s (k + 1) (n - 1 - k)
    rw [show k + 1 + (n - 1 - k) = n by omega, ← hvalue] at hfront
    have hlt := digitAt_lt s k
    calc (digitAt v k : Int) = sequenceValue f s (k + 1) % 128 := by rw [hdigit k hk, hfront]
      _ = digitAt s k := by rw [sequenceValue_succ]; omega

end Sys2Proof.Machine
end

section
/-! PROOFS of the family other, 7: the whole machine (rules R4, R11, R24, R30, R67 and R81). What a row answers
depends on the ports, the buffer and min(`LEN`, 10) alone; every step answers a state of the invariant. -/

namespace Sys2Proof.Machine

/-! ### The step and the rows -/

/-- Every row is an operation or an octet of the wire format (R2, R39). -/
theorem isOperation_or_decodeOctet (i : Instr) : isOperation i = true ∨ ∃ o, i = decodeOctet o := by
  cases h : spaceOf i with
  | select => exact .inl (by rw [isOperation, h]; rfl)
  | wire => exact .inr ⟨encode i, (decodeOctet_encode h).symm⟩

/-- With a decode on `OP` and an octet to read, a step is the row of the octet at offset 0 (R39, R62). -/
theorem step_eq_exec_decodeOctet {s : State} (hop : s.op.getLsbD 0 = true) (hlen : s.len ≠ 0) :
    step s = exec (decodeOctet (octetAt s 0)) s := by
  rw [step_eq_exec, decodeOp_eq, if_pos hop, exec_decodeInstr, exec_decodeOctet, decodeWhole_eq_decodeFirst _ hlen]

/-- Settles O2: a step is the operation on `OP`, and a decode is the decode from its first octet. -/
theorem stepPerformsDecodedRow : Obligations.StepPerformsDecodedRow :=
  fun s => ⟨step_eq_exec s, step_eq_exec_decodeOctet⟩

/-- A row placed is what the next step performs (log 7). -/
theorem step_placeInstr (i : Instr) (s : State) : step (placeInstr i s) = exec i (placeInstr i s) := by
  cases h : spaceOf i with
  | select =>
    have hop : (placeInstr i s).op = selectCode i := by rw [placeInstr, h]; rfl
    rw [step_eq_exec, hop, decodeOp_selectCode h]
  | wire =>
    have hplace : placeInstr i s = placeOctet (encode i) s := by rw [placeInstr, h]
    have hop : (placeOctet (encode i) s).op.getLsbD 0 = true := by simp [placeOctet]
    have hlen : (placeOctet (encode i) s).len ≠ 0 := by
      change max s.len 1 ≠ 0
      omega
    have hfirst : octetAt (placeOctet (encode i) s) 0 = encode i := Memory.read_write_same s.mem 0 _
    rw [hplace, step_eq_exec_decodeOctet hop hlen, hfirst, decodeOctet_encode h]

/-- Settles O7: `withFetchWord` places the row that the word is read as. -/
theorem placedRowRunsNext : Obligations.PlacedRowRunsNext := by
  intro s nbits w i h
  rw [State.withFetchWord, h]
  exact step_placeInstr i s

/-- Settles O42: every row ends, and a step is one of the rows. -/
theorem everyStepAnswers : Obligations.EveryStepAnswers := by
  intro s
  have hexec (i : Instr) : ∃ t, exec i s = .next t := (exec_released i s).imp fun _ => And.left
  exact ⟨hexec, step_eq_exec s ▸ hexec (decodeOp s.op)⟩

/-! ### The invariant -/

/-- Settles O1: the registers of reset are literals. -/
theorem resetMeetsInvariant : Obligations.ResetMeetsInvariant where
  wf := by decide
  inside := nofun
  released := rfl
  idle := nofun
  count := by decide
  n := by decide
  idx := by decide
  cnt := by decide

/-- A released state meets the invariant by its buffer and its count (R12, R23, R31). -/
theorem inv_release {u : State} (hwf : Memory.wf u.mem) (hinside : insideBuffer u) (hcount : u.count.toNat ≤ 10) :
    Inv (release u) where
  wf := hwf
  inside := hinside
  released := released_release u
  idle := nofun
  count := hcount
  n := Nat.zero_le 10
  idx := Nat.zero_le 10
  cnt := Nat.zero_le 10

/-- An encode keeps the invariant: it stores below `LEN`, in canonical form, and counts at most ten (R57). -/
theorem exec_encodeInstr_inv {f : Form} {s t : State} (hs : Inv s) (h : exec (encodeInstr f) s = .next t) : Inv t := by
  rw [exec_encodeInstr] at h
  obtain ⟨u, hu, rfl⟩ := endOperation_eq_next h
  rcases Nat.lt_or_ge s.len (size f s.valIn) with hroom | hroom
  · cases (encodeValue_failed hroom).symm.trans hu
    exact inv_release hs.wf hs.inside (Nat.zero_le 10)
  · obtain ⟨v, hv, -, -, hcount, -, -, -, -, hwf, hinside⟩ := encodeValue_next hroom
    cases hv.symm.trans hu
    exact inv_release (hwf hs.wf) (hinside hs.inside) (by rw [hcount, size_toNat]; exact size_le f _)

/-- A decode keeps the invariant: it leaves the buffer and counts at most ten (R29, R62). -/
theorem exec_decodeInstr_inv {f : Form} {s t : State} (hs : Inv s) (h : exec (decodeInstr f) s = .next t) : Inv t := by
  obtain ⟨u, hu, hkeep, -, hcount⟩ := decodeWhole_next f s
  cases (exec_decodeInstr_eq_next hu).symm.trans h
  refine inv_release (hkeep.mem ▸ hs.wf) ?_ hcount
  rw [insideBuffer, hkeep.mem, hkeep.len]
  exact hs.inside

/-- Settles O43: by `OP[0]` a step is a decode or an encode, and each keeps the invariant. -/
theorem stepKeepsInvariant : Obligations.StepKeepsInvariant := by
  intro s t hs h
  rw [step_eq_exec, decodeOp_eq] at h
  split at h
  · exact exec_decodeInstr_inv hs h
  · exact exec_encodeInstr_inv hs h

/-! ### What a row depends on -/

/-- Two states that an operation cannot tell apart: the same input ports and buffer, the same free value next, and the
same `LEN` up to ten (R11, R30). -/
structure SameInputs (s u : State) : Prop where
  op : u.op = s.op
  valIn : u.valIn = s.valIn
  mem : u.mem = s.mem
  draws : u.draws = s.draws
  len : min u.len 10 = min s.len 10

/-- A released state is its ports, its outputs and its buffer. -/
theorem release_eq {t v : State} (hop : v.op = t.op) (hval : v.valIn = t.valIn) (hmem : v.mem = t.mem)
    (hcount : v.count = t.count) (hout : v.valOut = t.valOut) (hcause : v.cause = t.cause)
    (hdraws : v.draws = t.draws) :
    release v = { release t with len := v.len } := by
  simp only [release, withWorkingOf, hop, hval, hmem, hcount, hout, hcause, hdraws]

/-- The loop of R57 leaves the same buffer from the same value, counters and buffer. -/
theorem encodeLoop_mem_congr (f : Form) (k : Nat) {s u : State} (hn : u.n = s.n) (hw : u.w = s.w) (hidx : u.idx = s.idx)
    (hmem : u.mem = s.mem) (hk : s.idx.toNat = k) (hs : k ≤ s.len) (hu : k ≤ u.len) :
    ∃ t v, encodeLoop k f s = .next t ∧ encodeLoop k f u = .next v ∧ v.mem = t.mem := by
  induction k generalizing s u with
  | zero => exact ⟨s, u, rfl, rfl, hmem⟩
  | succ k ih =>
    have hoct : assembledOctet u = assembledOctet s := by rw [assembledOctet, assembledOctet, hn, hw, hidx]
    rw [encodeLoop, encodeLoop, encodePass_next (by omega), encodePass_next (by rw [hidx]; omega), andThen_next,
      andThen_next]
    refine ih hn (congrArg (shiftGroup f) hw) (congrArg (· - 1#4) hidx) ?_ ?_ (by simp only; omega)
      (by simp only; omega)
    · simp only [hoct, hidx, hmem]
    · have hlt := s.idx.isLt
      simp only [BitVec.toNat_sub, BitVec.toNat_ofNat]
      omega

/-- The failure entry from the same inputs gives the same next state (R70, log 2). -/
theorem SameInputs.raise_eq {s u : State} (h : SameInputs s u) (c : Cause) :
    raise c (release u) = { raise c (release s) with len := u.len } :=
  release_eq (v := raise c u) (t := raise c s) h.op h.valIn h.mem rfl (congrArg Config.freeValOut h.draws) rfl
    (congrArg (· + 1) h.draws)

/-- Without room, an encode operation is the failure entry alone (R57, R70). -/
theorem exec_encodeInstr_eq_raise {f : Form} {s : State} (h : s.len < size f s.valIn) :
    exec (encodeInstr f) s = .next (raise .insufficientBuffer (release s)) := by
  rw [exec_encodeInstr, encodeValue_failed h]
  rfl

/-- Two encodes of the same inputs answer the same next state (R11, R30). -/
theorem exec_encodeInstr_congr (f : Form) {s u : State} (h : SameInputs s u) :
    ∃ t, exec (encodeInstr f) s = .next t ∧ exec (encodeInstr f) u = .next { t with len := u.len } ∧ t.len = s.len := by
  have hsize := size_le f s.valIn
  have hlen := h.len
  rcases Nat.lt_or_ge s.len (size f s.valIn) with hroom | hroom
  · have hroom' : u.len < size f u.valIn := by rw [h.valIn]; omega
    exact ⟨_, exec_encodeInstr_eq_raise hroom, by rw [exec_encodeInstr_eq_raise hroom', h.raise_eq], rfl⟩
  · have hroom' : size f u.valIn ≤ u.len := by rw [h.valIn]; omega
    have hn : (startEncode f u).n = (startEncode f s).n := by rw [startEncode_n, startEncode_n, h.valIn]
    obtain ⟨t, v, ht, hv, hmem⟩ :=
      encodeLoop_mem_congr f (size f s.valIn) hn h.valIn hn h.mem (size_toNat f _) hroom (h.valIn ▸ hroom')
    rw [← h.valIn] at hv
    obtain ⟨t', ht', hkeep, -⟩ := encodeLoop_canonical hroom
    obtain ⟨v', hv', hkeep', -⟩ := encodeLoop_canonical hroom'
    cases ht.symm.trans ht'
    cases hv.symm.trans hv'
    have hdraws : v.draws = t.draws := (hkeep'.draws.trans h.draws).trans hkeep.draws.symm
    refine ⟨_, exec_encodeInstr_of_loop hroom ht, ?_, hkeep.len⟩
    rw [exec_encodeInstr_of_loop hroom' hv]
    exact congrArg _ ((release_eq (v := returnEncode v) (t := returnEncode t)
      ((hkeep'.op.trans h.op).trans hkeep.op.symm) ((hkeep'.valIn.trans h.valIn).trans hkeep.valIn.symm) hmem
      ((hkeep'.n.trans hn).trans hkeep.n.symm) (congrArg Config.freeValOut hdraws) rfl (congrArg (· + 1) hdraws)).trans
      (by rw [returnEncode_len, hkeep'.len]; rfl))

/-- The same inputs have the same sequence or the same failure (R30). -/
theorem SameInputs.accepts {f : Form} {s u : State} {n : Nat} (h : SameInputs s u) (hacc : Accepts f s n) :
    Accepts f u n := by
  have hoct (a : Nat) : octetAt u a = octetAt s a := octetAt_congr h.mem a
  have hmin := h.len
  have ⟨_, h₁₀, hlen, _⟩ := hacc.sequence
  exact ⟨hasLength_of_octets hacc.sequence (by omega) fun k _ => hoct k, by rw [hoct]; exact hacc.lead⟩

theorem SameInputs.decodeFailure {f : Form} {s u : State} {c : Cause} (h : SameInputs s u)
    (hfail : DecodeFailure f s c) : DecodeFailure f u c := by
  have hoct (a : Nat) : octetAt u a = octetAt s a := octetAt_congr h.mem a
  have hmin := h.len
  cases c with
  | truncatedInput =>
    obtain ⟨hlen, hC⟩ := hfail
    exact ⟨by omega, fun k hk => by rw [hoct, hC k (by omega)]⟩
  | overlong =>
    obtain ⟨hlen, hC⟩ := hfail
    exact ⟨by omega, fun k hk => by rw [hoct, hC k hk]⟩
  | nonCanonicalMaxLength =>
    obtain ⟨hn, hlead⟩ := hfail
    have ⟨_, _, hlen, _⟩ := hn
    exact ⟨hasLength_of_octets hn (by omega) fun k _ => hoct k, by rwa [hoct]⟩
  | insufficientBuffer => exact hfail
  | noFailure => exact hfail

/-- Two decodes of the same inputs answer the same next state (R11, R30). -/
theorem exec_decodeInstr_congr (f : Form) {s u : State} (h : SameInputs s u) :
    ∃ t, exec (decodeInstr f) s = .next t ∧ exec (decodeInstr f) u = .next { t with len := u.len } ∧ t.len = s.len := by
  rcases decodeInput_cases f s with ⟨n, hacc⟩ | ⟨c, hfail⟩
  · have hword : decodedWord f u n = decodedWord f s n :=
      decodedWord_congr f hacc.sequence.1 fun k _ => octetAt_congr h.mem k
    refine ⟨_, exec_decodeInstr_of_accepts hacc, ?_, rfl⟩
    rw [exec_decodeInstr_of_accepts (h.accepts hacc), hword]
    exact congrArg _ (release_eq (v := acceptedState n _ u) (t := acceptedState n _ s)
      h.op h.valIn h.mem rfl rfl rfl h.draws)
  · exact ⟨_, exec_decodeInstr_failed hfail, by rw [exec_decodeInstr_failed (h.decodeFailure hfail), h.raise_eq], rfl⟩

theorem exec_operation_congr {i : Instr} (hi : isOperation i = true) {s u : State} (h : SameInputs s u) :
    ∃ t, exec i s = .next t ∧ exec i u = .next { t with len := u.len } ∧ t.len = s.len := by
  obtain ⟨f, rfl | rfl⟩ := (isOperation_iff i).mp hi
  · exact exec_encodeInstr_congr f h
  · exact exec_decodeInstr_congr f h

/-- Settles O41: a state with another `LEN` of the same minimum with ten has the same inputs. -/
theorem lenMattersUpToTen : Obligations.LenMattersUpToTen := by
  intro i s len hi hlen
  have hsame : SameInputs s { s with len := len } := ⟨rfl, rfl, rfl, rfl, hlen⟩
  obtain ⟨t, ht, hu, -⟩ := exec_operation_congr hi hsame
  exact ⟨t, ht, hu⟩

/-- An operation answers the same whatever the working registers hold, which are no inputs (R4). -/
theorem exec_operation_withWorkingOf {i : Instr} (hi : isOperation i = true) (s u : State) :
    exec i (withWorkingOf s u) = exec i s := by
  have hsame : SameInputs s (withWorkingOf s u) := ⟨rfl, rfl, rfl, rfl, rfl⟩
  obtain ⟨t, ht, hu, hlen⟩ := exec_operation_congr hi hsame
  rw [ht, hu, withWorkingOf_len, ← hlen]

/-- An octet row is a decode, so it answers the same whatever the working registers hold (R4; log 1). -/
theorem exec_decodeOctet_withWorkingOf (o : Octet) (s u : State) :
    exec (decodeOctet o) (withWorkingOf s u) = exec (decodeOctet o) s := by
  have hop : isOperation (decodeInstr (formOf s.op)) = true := (isOperation_iff _).mpr ⟨_, .inr rfl⟩
  obtain ⟨hnonempty, hempty⟩ := octetRowIsItsDecode o s
  obtain ⟨hnonempty', hempty'⟩ := octetRowIsItsDecode o (withWorkingOf s u)
  by_cases hlen : s.len = 0
  · obtain ⟨t, ht, hrow, -⟩ := hempty hlen
    obtain ⟨v, hv, hrow', -⟩ := hempty' hlen
    rw [withWorkingOf_op, exec_operation_withWorkingOf hop] at hv
    rw [hrow, hrow', Host.Outcome.next.inj (hv.symm.trans ht)]
  · obtain ⟨t, ht, hrow⟩ := hnonempty hlen
    obtain ⟨v, hv, hrow'⟩ := hnonempty' hlen
    have hsame := exec_operation_withWorkingOf hop (withMem (Memory.write s.mem 0 o) s) u
    rw [hrow, hrow', ← Host.Outcome.next.inj ((hsame.symm.trans hv).symm.trans ht), withWorkingOf_mem]

/-- Settles O40: every row is an operation or an octet, and none depends on a working register. -/
theorem noRowResumesSavedState : Obligations.NoRowResumesSavedState := by
  intro s u
  refine ⟨fun i => ?_, fun f => ?_, fun f o => ?_⟩
  · obtain ⟨t, ht, -⟩ := exec_released i s
    have hsame : exec i (withWorkingOf s u) = exec i s := by
      obtain hi | ⟨o, rfl⟩ := isOperation_or_decodeOctet i
      · exact exec_operation_withWorkingOf hi s u
      · exact exec_decodeOctet_withWorkingOf o s u
    exact ⟨t, ht, hsame.trans ht⟩
  · obtain ⟨t, ht, -, hst, -⟩ := decodeWhole_next f (withWorkingOf s u)
    exact ⟨t, ht, hst⟩
  · obtain ⟨t, ht, -, hst⟩ := decodeFirst_next f o (withWorkingOf s u)
    exact ⟨t, ht, hst⟩

/-! ### The causes -/

theorem causeCode_inj (c d : Cause) : causeCode c = causeCode d ↔ c = d := by
  cases c <;> cases d <;> decide

theorem causeCode_toNat_le (c : Cause) : (causeCode c).toNat ≤ 4 := by
  cases c <;> decide

/-- The cause a decode gives is the failure its input has, and none where it accepts (R67, R68). -/
theorem exec_decodeInstr_cause (f : Form) (s : State) :
    ∃ t, exec (decodeInstr f) s = .next t ∧ (t.cause = .noFailure ↔ 0 < t.count.toNat) ∧
      ∀ c, c ≠ .noFailure → (t.cause = c ↔ DecodeFailure f s c) := by
  have hgiven {t : State} {c : Cause} (ht : exec (decodeInstr f) s = .next t) (hc : DecodeFailure f s c) :
      t.cause = c := by
    rw [Host.Outcome.next.inj (ht.symm.trans (exec_decodeInstr_failed hc)), raise_cause]
  rcases decodeInput_cases f s with ⟨n, hacc⟩ | ⟨d, hfail⟩
  · have ht := exec_decodeInstr_of_accepts hacc
    refine ⟨_, ht, iff_of_true rfl ?_, fun c hne => ⟨fun hc => absurd hc.symm hne, hgiven ht⟩⟩
    rw [acceptedState_count_toNat hacc]
    exact hacc.sequence.1
  · have ht := exec_decodeInstr_failed hfail
    refine ⟨_, ht, iff_of_false (fun hd => ?_) nofun, fun c _ => ⟨fun hc => ?_, hgiven ht⟩⟩
    · cases hd
      exact hfail
    · cases hc
      exact hfail

/-- An encode fails with the one cause it has exactly where there is no room (R57, R67). -/
theorem exec_encodeInstr_cause (f : Form) (s : State) :
    ∃ t, exec (encodeInstr f) s = .next t ∧
      (s.len < size f s.valIn ∧ t.cause = .insufficientBuffer ∧ t.count = 0#4 ∨
        size f s.valIn ≤ s.len ∧ t.cause = .noFailure ∧ 0 < t.count.toNat) := by
  rcases Nat.lt_or_ge s.len (size f s.valIn) with hroom | hroom
  · exact ⟨_, exec_encodeInstr_eq_raise hroom, .inl ⟨hroom, rfl, rfl⟩⟩
  · obtain ⟨u, hu, hkeep, -⟩ := encodeLoop_canonical hroom
    refine ⟨_, exec_encodeInstr_of_loop hroom hu, .inr ⟨hroom, rfl, ?_⟩⟩
    rw [release_count, returnEncode_count, hkeep.n, startEncode_n, size_toNat]
    exact size_pos f _

/-- Settles O45: the codes are distinct, so each stands for its cause. -/
theorem causeNamesTheFailure : Obligations.CauseNamesTheFailure := by
  intro f s
  constructor
  · obtain ⟨t, ht, ⟨hroom, hcause, hcount⟩ | ⟨hroom, hcause, hcount⟩⟩ := exec_encodeInstr_cause f s
    · refine ⟨t, ht, ?_⟩
      rw [hcause, hcount]
      exact ⟨iff_of_true rfl hroom, iff_of_false nofun hroom.not_ge, iff_of_false nofun nofun⟩
    · refine ⟨t, ht, ?_⟩
      rw [hcause]
      exact ⟨iff_of_false nofun hroom.not_gt, iff_of_true rfl hroom, iff_of_true rfl hcount⟩
  · obtain ⟨t, ht, hnone, hcause⟩ := exec_decodeInstr_cause f s
    have hcode (c : Cause) (hne : c ≠ .noFailure) : causeCode t.cause = causeCode c ↔ DecodeFailure f s c :=
      (causeCode_inj t.cause c).trans (hcause c hne)
    exact ⟨t, ht, hcode .truncatedInput nofun, hcode .overlong nofun, hcode .nonCanonicalMaxLength nofun,
      (causeCode_inj t.cause .noFailure).trans hnone, fun h => (hcode .insufficientBuffer nofun).mp h,
      causeCode_toNat_le t.cause⟩

end Sys2Proof.Machine
end
